-- ==== Sys2Proof/Word.lean ====
section
/-! DEFINITION. Word.lean: the widths of the values the block handles (00_scope.md section 6.1, R10, R46, R49).
Bit 0 of every value is its least significant bit. -/

namespace Sys2Proof

/-- A byte: 8 bits, unsigned (00_scope.md section 6.1). -/
abbrev Byte := BitVec 8

/-- A command word, `cmd[15:0]` (R46); also the width of `PPM` (R17). -/
abbrev Word := BitVec 16

/-- The `idx` or `off` field of a command word, `cmd[11:8]` (R46). -/
abbrev Idx := BitVec 4

/-- Nine bytes `B0` to `B8`, `B0` first: a frame (R49) and the frame buffer `FB` (R11). -/
abbrev Frame := Vector Byte 9

end Sys2Proof
end

