-- ==== Sys2Proof/Config.lean ====
section
/-! DEFINITION. Config.lean: the constants of 00_scope.md R4 and R5.
"No parameter is left open for the model to take as an argument" (R5), so every one has its value here and
there is no free value. -/

namespace Sys2Proof.Config

/-! ### Fixed by the source (R4) -/

/-- Bytes in a request frame and in a response frame. -/
abbrev frameLen : Nat := 9
/-- Bytes summed by the checksum. -/
abbrev spanLen : Nat := 7
/-- Offset of the checksummed span in a frame (bytes 1 to 7). -/
abbrev csOffset : Fin 3 := 1
/-- Index of the checksum byte in a frame. -/
abbrev csIndex : Fin 9 := 8
/-- Required value of byte 0. -/
abbrev marker : Byte := 0xFF#8
/-- Command code "read": required value of byte 1 of a response, value of byte 2 of the request. -/
abbrev cmdRead : Byte := 0x86#8
/-- Byte that holds the high byte of the concentration. -/
abbrev ppmHiIndex : Fin 9 := 2
/-- Byte that holds the low byte of the concentration. -/
abbrev ppmLoIndex : Fin 9 := 3
/-- Bits of the decoded concentration. -/
abbrev ppmWidth : Nat := 16
/-- Byte 1 of the request frame. -/
abbrev sensorIndex : Byte := 0x01#8
/-- Byte 8 of the request frame. -/
abbrev reqChecksum : Byte := 0x79#8

/-! ### Decided by the spec (R5) -/

/-- Bits in a host command word. -/
abbrev cmdWidth : Nat := 16
/-- Bits of the index and offset fields. -/
abbrev idxWidth : Nat := 4
/-- Largest legal `CSUM` offset. -/
abbrev maxOffset : Nat := 2
/-- Bits of `STATUS`. -/
abbrev statusWidth : Nat := 8
/-- Number of privilege modes (R102). -/
abbrev modes : Nat := 1
/-- Number of hosts (R2). -/
abbrev hosts : Nat := 1

/-- The request frame, `FF 01 86 00 00 00 00 00 79` (R50). -/
def requestFrame : Frame :=
  #v[marker, sensorIndex, cmdRead, 0x00#8, 0x00#8, 0x00#8, 0x00#8, 0x00#8, reqChecksum]

end Sys2Proof.Config
end

