-- ==== Sys2Proof/Machine/Arith.lean ====
section
/-! DEFINITION. Machine/Arith.lean: the arithmetic primitives of 00_scope.md section 6.3, `MemRead` of section 6.2, and
the checksum function (R65). -/

namespace Sys2Proof.Machine

/-- `add8(a, b) = (a + b) mod 256`. -/
def add8 (a b : Byte) : Byte := BitVec.ofNat 8 (a.toNat + b.toNat)

/-- `sum8(l)`: "the fold of `add8` from 0". -/
def sum8 (l : List Byte) : Byte := l.foldl add8 0#8

/-- `neg8(s) = (256 - s) mod 256`; the reduction makes `neg8(0) = 0` (90_conflicts.md C1). -/
def neg8 (s : Byte) : Byte := BitVec.ofNat 8 (256 - s.toNat)

/-- `MemRead(i, n)`: the bytes `FB[i]` to `FB[i+n-1]`, "defined only when `i + n <= 9`". -/
def memRead (fb : Frame) (i n : Nat) (h : i + n ≤ 9) : List Byte :=
  List.ofFn fun k : Fin n => fb[i + k.val]

/-- `checksum(FB, off)` for `off` in 0 to 2 (R65). -/
def checksum (fb : Frame) (off : Fin 3) : Byte :=
  neg8 (sum8 (memRead fb off.val Config.spanLen (Nat.add_le_add_right (Nat.le_of_lt_succ off.isLt) 7)))

end Sys2Proof.Machine
end

