-- ==== Sys2Proof/Machine/ResponseFrame.lean ====
section
/-! DEFINITION. Machine/ResponseFrame.lean: what a response frame is (R49, R51), its concentration (R77), and the
spec's frame-construction helper (R53). -/

namespace Sys2Proof.Machine

/-- The nine bytes of a response frame from its fields (R49). -/
def responseBytes (ppmHi ppmLo r4 r5 r6 r7 cs : Byte) : Frame :=
  #v[Config.marker, Config.cmdRead, ppmHi, ppmLo, r4, r5, r6, r7, cs]

/-- The header of the buffer is correct (R75). -/
def headerOk (fb : Frame) : Bool := fb[0] == Config.marker && fb[1] == Config.cmdRead

/-- The checksum of the buffer is correct (R76). -/
def checksumOk (fb : Frame) : Bool := checksum fb Config.csOffset == fb[Config.csIndex]

/-- A well-formed response frame (R51). -/
def wellFormedResponse (fb : Frame) : Bool := headerOk fb && checksumOk fb

/-- `FB[2] ‖ FB[3]`, that is `zext_16(FB[2]) * 256 + zext_16(FB[3])`, the high byte first (R33, R77). -/
def concentration (fb : Frame) : BitVec 16 :=
  fb[Config.ppmHiIndex].zeroExtend 16 * 256#16 + fb[Config.ppmLoIndex].zeroExtend 16

/-- `encode_response(ppm, r4, r5, r6, r7)`, the spec's test helper (R53); no function of the block. -/
def encodeResponse (ppm : BitVec 16) (r4 r5 r6 r7 : Byte) : Frame :=
  let hi := ppm.extractLsb' 8 8
  let lo := ppm.extractLsb' 0 8
  responseBytes hi lo r4 r5 r6 r7 (neg8 (sum8 [Config.cmdRead, hi, lo, r4, r5, r6, r7]))

end Sys2Proof.Machine
end

