-- ==== Sys2Proof/Syntax.lean ====
section
/-! DEFINITION. Syntax.lean: the instructions, one constructor per row of spec/opcode_table.json; the two kinds of
encoded object (30_encoding.md, opening: a command word, a frame); the assembler's lines (R54, R57). -/

namespace Sys2Proof

/-- One constructor per row of spec/opcode_table.json. The first three are the host commands (R47), the last two the
frames (R49, R50), whose bytes the block takes into `FB` and decodes (R57). -/
inductive Instr where
  /-- `LDB idx, val` (R60). -/
  | ldb (idx : Idx) (val : Byte)
  /-- `CSUM off` (R68). -/
  | csum (off : Idx)
  /-- `DEC` (R78). -/
  | dec
  /-- The response frame `FF 86 ppmHi ppmLo r4 r5 r6 r7 cs` (R49); `cs` is any byte, as in the row's mask. -/
  | respReadCo2 (ppmHi ppmLo r4 r5 r6 r7 cs : Byte)
  /-- The request frame `FF 01 86 00 00 00 00 00 79` (R50). -/
  | reqReadCo2
  deriving DecidableEq, Repr

/-- What an instruction is encoded as: a 16-bit command word (R46) or nine bytes (R49, R55). -/
inductive Code where
  | word (w : Word)
  | frame (bytes : Frame)
  deriving DecidableEq, Repr

/-- One line of the spec's assembler (R54) or pseudo-instruction (R57), its operands numerals of any size. -/
inductive AsmLine where
  /-- `LDB idx, val`. -/
  | ldb (idx val : Nat)
  /-- `CSUM off`. -/
  | csum (off : Nat)
  /-- `DEC`. -/
  | dec
  /-- `.word w`: the 16-bit word as it stands. -/
  | word (w : Nat)
  /-- `.reset`: not a command, a reset step. -/
  | reset
  /-- `LDF b0 b1 b2 b3 b4 b5 b6 b7 b8`. -/
  | ldf (bytes : List Nat)
  /-- `VALIDATE b0 b1 b2 b3 b4 b5 b6 b7 b8`. -/
  | validate (bytes : List Nat)
  deriving DecidableEq, Repr

end Sys2Proof
end

