-- ==== Sys2Proof/WellFormed.lean ====
section
/-! DEFINITION. WellFormed.lean: which instructions and assembler lines are well formed.
Every command is: "The range limits on `idx` and `off` are not part of the match" (R47). A response frame is when its
byte 8 meets the table row's constraint (R51); an ill-formed one still decodes and runs, since reporting it is what DEC
is for. -/

namespace Sys2Proof

/-- Well-formedness of an instruction. -/
def Instr.wellFormed : Instr → Bool
  | .ldb _ _ => true
  | .csum _ => true
  | .dec => true
  | .respReadCo2 ppmHi ppmLo r4 r5 r6 r7 cs =>
    Machine.wellFormedResponse (Machine.responseBytes ppmHi ppmLo r4 r5 r6 r7 cs)
  | .reqReadCo2 => true

/-- The assembler "rejects operands that do not fit their field" (R54); LDF and VALIDATE take nine bytes (R57). -/
def AsmLine.wellFormed : AsmLine → Bool
  | .ldb idx val => decide (idx < 16) && decide (val < 256)
  | .csum off => decide (off < 16)
  | .dec => true
  | .word w => decide (w < 65536)
  | .reset => true
  | .ldf bytes => decide (bytes.length = 9) && bytes.all (fun b => decide (b < 256))
  | .validate bytes => decide (bytes.length = 9) && bytes.all (fun b => decide (b < 256))

end Sys2Proof
end

