-- ==== Sys2Proof/Decode.lean ====
section
/-! DEFINITION. Decode.lean: from a command word or nine bytes to an instruction, or a rejection by name (R47 to R50,
R56), and the encoder. -/

namespace Sys2Proof

/-- Why a code is no row of the table. -/
inductive Illegal where
  /-- A command word whose `op` is 0x0 or 0x4 to 0xF (R48). -/
  | opcode
  /-- `op = 0x2` and `val` not 0x00 (R48). -/
  | csumValue
  /-- `op = 0x3` and `idx` not 0x0 or `val` not 0x00 (R48). -/
  | decOperand
  /-- Nine bytes that are neither the request frame nor begin `FF 86` (R56). -/
  | notAFrameRow
  deriving DecidableEq, Repr

/-- What the decoder answers. -/
inductive Decoded where
  | legal (i : Instr)
  | illegal (why : Illegal)
  deriving DecidableEq, Repr

/-- One command row of the table (R47): its mnemonic, match and mask. -/
structure CmdRow where
  mnemonic : String
  value : Word
  mask : Word
  deriving DecidableEq, Repr

/-- The row of `LDB` (R47). -/
def rowLdb : CmdRow := { mnemonic := "LDB", value := 0x1000#16, mask := 0xF000#16 }
/-- The row of `CSUM` (R47). -/
def rowCsum : CmdRow := { mnemonic := "CSUM", value := 0x2000#16, mask := 0xF0FF#16 }
/-- The row of `DEC` (R47). -/
def rowDec : CmdRow := { mnemonic := "DEC", value := 0x3000#16, mask := 0xFFFF#16 }
/-- The three command rows. -/
def commandRows : List CmdRow := [rowLdb, rowCsum, rowDec]

/-- "A word `w` selects a row when `(w AND mask) = match`" (R47). -/
def CmdRow.selects (r : CmdRow) (w : Word) : Bool := w &&& r.mask == r.value

/-- `cmd[15:12]` (R46). -/
def fieldOp (w : Word) : BitVec 4 := w.extractLsb' 12 4
/-- `cmd[11:8]` (R46, R52): used as is, unsigned. -/
def fieldIdx (w : Word) : Idx := w.extractLsb' 8 4
/-- `cmd[7:0]` (R46, R52). -/
def fieldVal (w : Word) : Byte := w.extractLsb' 0 8

/-- The name of an illegal word's defect (R48). -/
def illegalWord (w : Word) : Illegal :=
  if fieldOp w = 0x2#4 then .csumValue
  else if fieldOp w = 0x3#4 then .decOperand
  else .opcode

/-- A command word's instruction: the row it selects, else illegal (R47, R48). -/
def decodeWord (w : Word) : Decoded :=
  if rowLdb.selects w then .legal (.ldb (fieldIdx w) (fieldVal w))
  else if rowCsum.selects w then .legal (.csum (fieldIdx w))
  else if rowDec.selects w then .legal .dec
  else .illegal (illegalWord w)

/-- The frame row nine bytes select (R49, R50, R56). -/
def decodeFrame (f : Frame) : Decoded :=
  if Machine.headerOk f then .legal (.respReadCo2 f[2] f[3] f[4] f[5] f[6] f[7] f[8])
  else if f = Config.requestFrame then .legal .reqReadCo2
  else .illegal .notAFrameRow

/-- The decoder: total on every code. -/
def decode : Code → Decoded
  | .word w => decodeWord w
  | .frame f => decodeFrame f

/-- The command word with the three fields of `CMD16` (R46). -/
def joinFields (op : BitVec 4) (idx : Idx) (val : Byte) : Word :=
  BitVec.ofNat 16 (op.toNat * 4096 + idx.toNat * 256 + val.toNat)

/-- The word of `LDB idx, val` (R47). -/
def ldbWord (idx : Idx) (val : Byte) : Word := joinFields 0x1#4 idx val
/-- The word of `CSUM off` (R47). -/
def csumWord (off : Idx) : Word := joinFields 0x2#4 off 0x00#8
/-- The word of `DEC` (R47). -/
def decWord : Word := joinFields 0x3#4 0x0#4 0x00#8

/-- The encoder, from the same rows (R47, R49, R50). -/
def encode : Instr → Code
  | .ldb idx val => .word (ldbWord idx val)
  | .csum off => .word (csumWord off)
  | .dec => .word decWord
  | .respReadCo2 ppmHi ppmLo r4 r5 r6 r7 cs => .frame (Machine.responseBytes ppmHi ppmLo r4 r5 r6 r7 cs)
  | .reqReadCo2 => .frame Config.requestFrame

/-- The nine bytes of a 72-bit number: "byte 0 most significant" (R49). -/
def frameOfBits (w : BitVec 72) : Frame :=
  Vector.ofFn fun i : Fin 9 => w.extractLsb' (64 - 8 * i.val) 8

/-- A frame as one 72-bit number, `B0 ‖ B1 ‖ ... ‖ B8`, where `a ‖ b = a * 256 + b` (00_scope.md section 6.1). -/
def bitsOfFrame (f : Frame) : BitVec 72 :=
  BitVec.ofNat 72 (f.toList.foldl (fun acc b => acc * 256 + b.toNat) 0)

/-- The code whose bits are `w`, for a table row of `nbits` bits: a command word is 16 bits, a frame 72 (R55). -/
def codeOfTableWord (nbits w : Nat) : Option Code :=
  if nbits = 16 then some (.word (BitVec.ofNat 16 w))
  else if nbits = 72 then some (.frame (frameOfBits (BitVec.ofNat 72 w)))
  else none

/-- The instruction the decoder reads from bits numbered as spec/opcode_table.json numbers them (for a frame row,
bits 71:64 are byte 0). -/
def decodeTableWord (nbits w : Nat) : Option Instr :=
  match codeOfTableWord nbits w with
  | none => none
  | some c =>
    match decode c with
    | .legal i => some i
    | .illegal _ => none

end Sys2Proof
end

