-- ==== Sys2Proof/Machine/Operands.lean ====
section
/-! DEFINITION. Machine/Operands.lean: operand assembly and the range checks (R35, R52). An operand is used as is: not
scaled, not shifted, not sign-extended; an index outside the buffer never wraps. -/

namespace Sys2Proof.Machine

/-- The buffer byte `idx` names: `FB[0]` to `FB[8]`, none for 9 to 15 (R60, R61). -/
def bufferIndex (idx : Idx) : Option (Fin 9) :=
  if h : idx.toNat < Config.frameLen then some ⟨idx.toNat, h⟩ else none

/-- The span offset `off` names: 0 to 2, none for 3 to 15 (R68, R69). -/
def spanOffset (off : Idx) : Option (Fin 3) :=
  if h : off.toNat ≤ Config.maxOffset then some ⟨off.toNat, Nat.lt_succ_of_le h⟩ else none

end Sys2Proof.Machine
end

