-- ==== Sys2Proof/Machine/Flags.lean ====
section
/-! DEFINITION. Machine/Flags.lean: the fields of `STATUS` (R15), the values of `RES` (R16) and of `ERR_CODE` (R19).
A write of one field leaves the other bits as they are. -/

namespace Sys2Proof.Machine

/-- The result of a `DEC` (R16). -/
inductive DecResult where
  | none
  | ok
  | framingError
  | checksumMismatch
  deriving DecidableEq, Repr

/-- The number of a result in `STATUS.RES` (R16). -/
def resCode : DecResult → BitVec 2
  | .none => 0#2
  | .ok => 1#2
  | .framingError => 2#2
  | .checksumMismatch => 3#2

/-- A command fault (R95). -/
inductive CmdFault where
  | illegalCmd
  | indexRange
  | offsetRange
  deriving DecidableEq, Repr

/-- The number of a command fault in `STATUS.ERR_CODE` (R19, R95). -/
def faultCode : CmdFault → BitVec 2
  | .illegalCmd => 1#2
  | .indexRange => 2#2
  | .offsetRange => 3#2

/-- `STATUS.RES`, bits 1:0. -/
def statusRes (st : Byte) : BitVec 2 := st.extractLsb' 0 2
/-- `STATUS.PPM_VALID`, bit 2. -/
def statusPpmValid (st : Byte) : Bool := st.getLsbD 2
/-- `STATUS.ERR_F`, bit 3. -/
def statusErrF (st : Byte) : Bool := st.getLsbD 3
/-- `STATUS.ERR_CODE`, bits 5:4. -/
def statusErrCode (st : Byte) : BitVec 2 := st.extractLsb' 4 2
/-- `STATUS[7:6]`, which read as 0 and which nothing writes. -/
def statusZero (st : Byte) : BitVec 2 := st.extractLsb' 6 2

/-- `STATUS` with `RES` written. -/
def withRes (st : Byte) (r : DecResult) : Byte := st.extractLsb' 2 6 ++ resCode r
/-- `STATUS` with `PPM_VALID` set to 1 (nothing but reset sets it to 0, R18). -/
def withPpmValid (st : Byte) : Byte := st ||| 0x04#8
/-- `STATUS` with `ERR_F` set to 1 and `ERR_CODE` written (R96). -/
def withFault (st : Byte) (f : CmdFault) : Byte := st.extractLsb' 6 2 ++ faultCode f ++ 1#1 ++ st.extractLsb' 0 3

end Sys2Proof.Machine
end

