-- ==== Sys2Proof/Machine/State.lean ====
section
/-! DEFINITION. Machine/State.lean: the 120 bits of R10, the host's remaining moves, the reset state, the reasons a
step could stop. -/

namespace Sys2Proof.Machine

/-- One move of the host, the input ports at one rising edge of `clk` (R45). With `rst = 1` it issues a reset, else with
`cmd_valid = 1` one command, the moves of R2; with neither it makes no move. Reading the output registers, R2's third
move, is no step (R22): Machine/Ports.lean. -/
structure HostInput where
  edge ::
  /-- 1 for a reset step. -/
  rst : Bool
  /-- 1 when `cmd` carries a command to execute at this edge. -/
  cmdValid : Bool
  /-- The command word. -/
  cmd : Word
  deriving DecidableEq, Repr

/-- The architectural state (R10), and in `inputs` the model's own field: the host's moves still to come. -/
structure State where
  /-- The frame buffer `FB[0]` to `FB[8]` (R11). -/
  fb : Frame
  /-- Register 0 (R15). -/
  status : Byte
  /-- Register 1, the last decoded concentration (R17). -/
  ppm : BitVec 16
  /-- Register 2, the checksum the last `DEC` computed (R20). -/
  csExp : Byte
  /-- Register 3, the checksum byte the last `DEC` saw (R20). -/
  csAct : Byte
  /-- Register 4, the result of the last `CSUM` (R21). -/
  csr : Byte
  /-- The host's moves still to come, the next one first (DESIGN CHOICE, safe: log entry 1). -/
  inputs : List HostInput
  deriving DecidableEq, Repr

/-- The machine after a reset: every bit of the block's state 0 (R24). No host move is pending (log entry 1). -/
def State.reset : State where
  fb := Vector.replicate 9 0x00#8
  status := 0x00#8
  ppm := 0x0000#16
  csExp := 0x00#8
  csAct := 0x00#8
  csr := 0x00#8
  inputs := []

/-- The reasons a step could stop with a fault: none. "Nothing in the block is `stuck`: every command and reset always
has a step" (93_implementation_defined.md); a command fault is a next state (R96). -/
inductive Fault where
  deriving DecidableEq, Repr

/-- The reasons a step could be refused. -/
inductive Refusal where
  /-- An instruction without a meaning in `exec`. Raised by nothing: every row of the table has its meaning. Safe. -/
  | notModelled (mnemonic : String)
  deriving DecidableEq, Repr

/-- The three outcomes of a step of this machine. -/
abbrev Result := Host.Outcome State Fault Refusal

end Sys2Proof.Machine
end

