-- ==== Sys2Proof/Machine/Ops.lean ====
section
/-! DEFINITION. Machine/Ops.lean: the named operations over the buffer and the registers (00_scope.md section 6.2),
raising a command fault (R96), and the reset step (R110). A command fault is "returned from" by nothing: only reset
clears it (R100). -/

namespace Sys2Proof.Machine

/-- `FB[i] <- v`: changes `FB[i]` and nothing else (R34). -/
def State.writeByte (s : State) (i : Fin 9) (v : Byte) : State := { s with fb := s.fb.set i v }

/-- `STATUS <- v`; reached through the field writes below only. -/
def State.setStatus (s : State) (v : Byte) : State := { s with status := v }

/-- `STATUS.RES <- r`. -/
def State.setRes (s : State) (r : DecResult) : State := s.setStatus (withRes s.status r)

/-- `STATUS.PPM_VALID <- 1`. -/
def State.setPpmValid (s : State) : State := s.setStatus (withPpmValid s.status)

/-- `PPM <- v`. -/
def State.setPpm (s : State) (v : BitVec 16) : State := { s with ppm := v }

/-- `CS_EXP <- v`. -/
def State.setCsExp (s : State) (v : Byte) : State := { s with csExp := v }

/-- `CS_ACT <- v`. -/
def State.setCsAct (s : State) (v : Byte) : State := { s with csAct := v }

/-- `CSR <- v`. -/
def State.setCsr (s : State) (v : Byte) : State := { s with csr := v }

/-- The host's moves still to come. -/
def State.setInputs (s : State) (l : List HostInput) : State := { s with inputs := l }

/-- The host's move that issues one command word (R2, R45). -/
def issueWord (w : Word) : HostInput := .edge false true w

/-- `raise CmdFault(code)` (R96): the first cause since reset is recorded, a later one changes nothing. -/
def raiseCmdFault (f : CmdFault) (s : State) : State :=
  if statusErrF s.status then s else s.setStatus (withFault s.status f)

/-- The reset step (R110): every bit of the block's state is set to 0; the host is not reset (R112). -/
def resetStep (s : State) : State := State.reset.setInputs s.inputs

end Sys2Proof.Machine
end

