-- ==== Sys2Proof/Machine/BufferLoad.lean ====
section
/-! DEFINITION. Machine/BufferLoad.lean: `LDB` (40_buffer_load.md). -/

namespace Sys2Proof.Machine

/-- `LDB idx, val` (R60, R61). -/
def execLdb (idx : Idx) (val : Byte) (s : State) : Result :=
  match bufferIndex idx with
  | some i => .next (s.writeByte i val)
  | none => .next (raiseCmdFault .indexRange s)

end Sys2Proof.Machine
end

