-- ==== Sys2Proof/Machine/Checksum.lean ====
section
/-! DEFINITION. Machine/Checksum.lean: `CSUM` (41_checksum.md). -/

namespace Sys2Proof.Machine

/-- `CSUM off` (R68, R69). -/
def execCsum (off : Idx) (s : State) : Result :=
  match spanOffset off with
  | some o => .next (s.setCsr (checksum s.fb o))
  | none => .next (raiseCmdFault .offsetRange s)

end Sys2Proof.Machine
end

