-- ==== Sys2Proof/Machine/FrameDecode.lean ====
section
/-! DEFINITION. Machine/FrameDecode.lean: `DEC` (42_frame_decode.md). -/

namespace Sys2Proof.Machine

/-- Validate and decode the buffer, R78's pseudocode: the header is checked first, the checksum second (R79). -/
def decodeBuffer (s : State) : State :=
  let exp := checksum s.fb Config.csOffset
  let act := s.fb[Config.csIndex]
  let t := (s.setCsExp exp).setCsAct act
  if s.fb[0] ≠ Config.marker ∨ s.fb[1] ≠ Config.cmdRead then t.setRes .framingError
  else if exp ≠ act then t.setRes .checksumMismatch
  else ((t.setRes .ok).setPpm (concentration s.fb)).setPpmValid

/-- `DEC` (R78). -/
def execDec (s : State) : Result := .next (decodeBuffer s)

end Sys2Proof.Machine
end

