-- ==== Sys2Proof/Machine/Frames.lean ====
section
/-! DEFINITION. Machine/Frames.lean: the two frames of the table (R49, R50). A frame is "data decoded by DEC, not a
command": the host presents one by the ten commands of `VALIDATE` (R57), one step each (R3). A frame row's meaning is
the first of those steps, the other nine commands being the host's next moves (DESIGN CHOICE, safe: log entry 2). -/

namespace Sys2Proof.Machine

/-- `LDF b0 ... b8`: `LDB 0, b0` to `LDB 8, b8`, "in increasing index order (nine commands)" (R57). -/
def loadMoves (f : Frame) : List HostInput :=
  (List.finRange 9).map fun i => issueWord (ldbWord (BitVec.ofNat 4 i.val) f[i])

/-- `VALIDATE b0 ... b8`: "`LDF b0 ... b8` followed by `DEC` (ten commands)" (R57). -/
def validateMoves (f : Frame) : List HostInput := loadMoves f ++ [issueWord decWord]

/-- The first step of `VALIDATE`: `LDB 0, b0`, with the nine other commands as the host's next moves. -/
def startValidate (f : Frame) (s : State) : Result :=
  execLdb 0#4 f[0] (s.setInputs ((validateMoves f).tail ++ s.inputs))

/-- A response frame received and decoded (R49, R57). -/
def execRespReadCo2 (ppmHi ppmLo r4 r5 r6 r7 cs : Byte) (s : State) : Result :=
  startValidate (responseBytes ppmHi ppmLo r4 r5 r6 r7 cs) s

/-- The request frame, "if it is loaded into `FB`" and decoded (R50, R57). -/
def execReqReadCo2 (s : State) : Result := startValidate Config.requestFrame s

end Sys2Proof.Machine
end

