-- ==== Sys2Proof/Machine/Dispatch.lean ====
section
/-! DEFINITION. Machine/Dispatch.lean: one arm per constructor of Instr. -/

namespace Sys2Proof.Machine

def exec (i : Instr) (s : State) : Host.Outcome State Fault Refusal :=
  match i with
  | .ldb idx val => Sys2Proof.Machine.execLdb idx val s
  | .csum off => Sys2Proof.Machine.execCsum off s
  | .dec => Sys2Proof.Machine.execDec s
  | .respReadCo2 ppmHi ppmLo r4 r5 r6 r7 cs => Sys2Proof.Machine.execRespReadCo2 ppmHi ppmLo r4 r5 r6 r7 cs s
  | .reqReadCo2 => Sys2Proof.Machine.execReqReadCo2 s

end Sys2Proof.Machine
end

