-- ==== Sys2Proof/Machine/HostPort.lean ====
section
/-! DEFINITION. Machine/HostPort.lean: how a host move becomes a step (R2, R3, R45, R98). -/

namespace Sys2Proof.Machine

/-- One command step with the word on `cmd`: an illegal word raises `ILLEGAL_CMD` and changes nothing else (R48). -/
def runWord (w : Word) (s : State) : Result :=
  match decodeWord w with
  | .legal i => exec i s
  | .illegal _ => .next (raiseCmdFault .illegalCmd s)

/-- What one host move does. At a rising edge: reset if `rst = 1`, else a command step if `cmd_valid = 1`, else
"no step and no state changes" (R45). -/
def acceptInput (m : HostInput) (s : State) : Result :=
  match m with
  | .edge true _ _ => .next (resetStep s)
  | .edge false true cmd => runWord cmd s
  | .edge false false _ => .next s

/-- The host's moves that present a code to the block: a command word is one command, nine bytes are loaded and decoded
by the ten of `VALIDATE`, whichever row they select or none (R56, R57). -/
def presentCode : Code → List HostInput
  | .word w => [issueWord w]
  | .frame f => validateMoves f

/-- `s` with the moves that present a code as the host's next ones. -/
def presentNext (c : Code) (s : State) : State := s.setInputs (presentCode c ++ s.inputs)

/-- `s` with the code of a table word presented next; unchanged for a width no row has. -/
def presentTableWord (nbits w : Nat) (s : State) : State :=
  match codeOfTableWord nbits w with
  | some c => presentNext c s
  | none => s

end Sys2Proof.Machine
end

