-- ==== Sys2Proof/Machine/Step.lean ====
section
/-! DEFINITION. Machine/Step.lean: one step consumes the host's next move. With none left the block holds its state:
"it takes no step and no state changes" (R45); "The block never halts" (R125). -/

namespace Sys2Proof.Machine

/-- One step of the machine: the complete execution of one command or one reset (R3), or an edge with neither. -/
def step (s : State) : Host.Outcome State Fault Refusal :=
  match s.inputs with
  | [] => .next s
  | m :: rest => Sys2Proof.Machine.acceptInput m (s.setInputs rest)

/-- `s` with the instruction whose bits are `w` presented by the host's next moves, so that the next step runs it (log
entry 3). -/
def State.withFetchWord (s : State) (nbits w : Nat) : State := Sys2Proof.Machine.presentTableWord nbits w s

end Sys2Proof.Machine
end

