-- ==== Sys2Proof/Machine/Assembler.lean ====
section
/-! DEFINITION. Machine/Assembler.lean: the spec's assembler (R54, R57): from a line of text to an `AsmLine`, and from an
`AsmLine` to the host moves it stands for. Text is a list of characters, without the line's end. -/

namespace Sys2Proof.Machine

/-! ### Lines to host moves -/

/-- The host move that issues the command word of value `w`. -/
def issueNumber (w : Nat) : HostInput := issueWord (BitVec.ofNat 16 w)

/-- `LDB idx, val` is `0x1000 + idx * 256 + val` (R54). -/
def wordLdb (idx val : Nat) : Nat := 0x1000 + idx * 256 + val

/-- `CSUM off` is `0x2000 + off * 256` (R54). -/
def wordCsum (off : Nat) : Nat := 0x2000 + off * 256

/-- `LDF`: one `LDB` per byte, in increasing index order (R57). -/
def expandLdf (bytes : List Nat) : List HostInput :=
  bytes.mapIdx fun k b => issueNumber (wordLdb k b)

/-- A line's host moves; none where an operand does not fit its field (R54). `.reset` is a reset step, with nothing on
the command port. -/
def assemble (l : AsmLine) : Option (List HostInput) :=
  if l.wellFormed then
    match l with
    | .ldb idx val => some [issueNumber (wordLdb idx val)]
    | .csum off => some [issueNumber (wordCsum off)]
    | .dec => some [issueNumber 0x3000]
    | .word w => some [issueNumber w]
    | .reset => some [.edge true false 0x0000#16]
    | .ldf bytes => some (expandLdf bytes)
    | .validate bytes => some (expandLdf bytes ++ [issueNumber 0x3000])
  else none

/-- A program: its lines' host moves in order. -/
def assembleProgram : List AsmLine → Option (List HostInput)
  | [] => some []
  | l :: rest =>
    match assemble l, assembleProgram rest with
    | some ms, some more => some (ms ++ more)
    | _, _ => none

/-! ### Text to lines -/

/-- A digit's value; the letters are capitals, as the spec writes them (DESIGN CHOICE, safe: log entry 4). -/
def digitValue (c : Char) : Option Nat :=
  if '0' ≤ c ∧ c ≤ '9' then some (c.toNat - 48)
  else if 'A' ≤ c ∧ c ≤ 'F' then some (c.toNat - 55)
  else none

/-- Digits in a base, most significant first, onto the value so far. -/
def digitsFrom (base acc : Nat) : List Char → Option Nat
  | [] => some acc
  | c :: rest =>
    match digitValue c with
    | some d => if d < base then digitsFrom base (acc * base + d) rest else none
    | none => none

/-- A numeral: `0x` hexadecimal, `0b` binary, all others decimal (00_scope.md section 6.1). -/
def numeral : List Char → Option Nat
  | [] => none
  | '0' :: 'x' :: c :: rest => digitsFrom 16 0 (c :: rest)
  | '0' :: 'b' :: c :: rest => digitsFrom 2 0 (c :: rest)
  | c :: rest => digitsFrom 10 0 (c :: rest)

/-- One byte of a frame written as hexadecimal bytes, `FF 86 ...` (00_scope.md section 6.1): two digits. -/
def hexByte : List Char → Option Nat
  | [a, b] => digitsFrom 16 0 [a, b]
  | _ => none

/-- All of a list, or none. -/
def hexBytes : List (List Char) → Option (List Nat)
  | [] => some []
  | t :: rest =>
    match hexByte t, hexBytes rest with
    | some b, some more => some (b :: more)
    | _, _ => none

/-- A line's tokens: `;` starts a comment, blanks separate, a comma is a token (R54). `cur` is the token being read. -/
def tokensFrom (cur : List Char) : List Char → List (List Char)
  | [] => if cur.isEmpty then [] else [cur]
  | c :: rest =>
    let done := if cur.isEmpty then [] else [cur]
    if c = ';' then done
    else if c = ' ' ∨ c = '\t' then done ++ tokensFrom [] rest
    else if c = ',' then done ++ [','] :: tokensFrom [] rest
    else tokensFrom (cur ++ [c]) rest

/-- The line a list of tokens spells; the list is empty for a line with no command (R54, R57). -/
def parseTokens : List (List Char) → Option (List AsmLine)
  | [] => some []
  | [['D', 'E', 'C']] => some [.dec]
  | [['.', 'r', 'e', 's', 'e', 't']] => some [.reset]
  | [['C', 'S', 'U', 'M'], n] => (numeral n).map fun off => [.csum off]
  | [['.', 'w', 'o', 'r', 'd'], n] => (numeral n).map fun w => [.word w]
  | [['L', 'D', 'B'], a, [','], b] =>
    match numeral a, numeral b with
    | some idx, some val => some [.ldb idx val]
    | _, _ => none
  | ['L', 'D', 'F'] :: bytes => (hexBytes bytes).map fun bs => [.ldf bs]
  | ['V', 'A', 'L', 'I', 'D', 'A', 'T', 'E'] :: bytes => (hexBytes bytes).map fun bs => [.validate bs]
  | _ => none

/-- One line of text (R54). -/
def parseLine (text : List Char) : Option (List AsmLine) := parseTokens (tokensFrom [] text)

end Sys2Proof.Machine
end

