-- ==== Sys2Proof/Machine/Ports.lean ====
section
/-! DEFINITION. Machine/Ports.lean: the output registers as the host reads them (R22): always visible, each on its own
port; a read has no side effect and is no step. `FB` has no port (R13). -/

namespace Sys2Proof.Machine

/-- The output registers (R22). -/
inductive OutReg where
  | status
  | ppm
  | csExp
  | csAct
  | csr
  deriving DecidableEq, Repr

/-- The register's number; a name only, "there is no address bus and no read command" (R22). -/
def OutReg.number : OutReg → Nat
  | .status => 0
  | .ppm => 1
  | .csExp => 2
  | .csAct => 3
  | .csr => 4

/-- The width of the register's port (R22). -/
def OutReg.width : OutReg → Nat
  | .status => 8
  | .ppm => 16
  | .csExp => 8
  | .csAct => 8
  | .csr => 8

/-- What the register's port shows. -/
def readPort (s : State) : (r : OutReg) → BitVec r.width
  | .status => s.status
  | .ppm => s.ppm
  | .csExp => s.csExp
  | .csAct => s.csAct
  | .csr => s.csr

end Sys2Proof.Machine
end

