-- ==== Sys2Proof/Safety.lean ====
section
/-! DEFINITION. Safety.lean: what a clean state and a usable reading are, the invariant of R25, and the kinds of host
move that whole-machine statements speak of. -/

namespace Sys2Proof.Machine

/-- No command fault since reset: "A model should take `ERR_F = 1` as its fault bit" (R96). -/
def State.clean (s : State) : Bool := !statusErrF s.status

/-- `PPM` holds a decoded value (R18; host duty H6 of R105). -/
def State.readingValid (s : State) : Bool := statusPpmValid s.status

/-- The invariant of R25, clauses (a) to (f). Clause (g) is about two states and stands in a statement of its own. -/
abbrev State.Inv (s : State) : Prop :=
  statusZero s.status = 0#2 ∧
  (statusErrF s.status = false → statusErrCode s.status = 0#2) ∧
  (statusErrF s.status = true → statusErrCode s.status ≠ 0#2) ∧
  (statusPpmValid s.status = false → s.ppm = 0x0000#16) ∧
  (statusRes s.status = resCode .ok → statusPpmValid s.status = true ∧ s.csExp = s.csAct) ∧
  (statusRes s.status = resCode .checksumMismatch → s.csExp ≠ s.csAct) ∧
  (statusRes s.status = resCode .none →
    statusPpmValid s.status = false ∧ s.csExp = 0x00#8 ∧ s.csAct = 0x00#8)

/-- The plain integer sum of the seven bytes of a span, 0 to 1785 (R66). -/
def spanSum (fb : Frame) (o : Fin 3) : Nat :=
  fb[o.val].toNat + fb[o.val + 1].toNat + fb[o.val + 2].toNat + fb[o.val + 3].toNat + fb[o.val + 4].toNat +
    fb[o.val + 5].toNat + fb[o.val + 6].toNat

/-- The two states differ in nothing but the buffer. -/
def State.sameButBuffer (s t : State) : Prop :=
  t.status = s.status ∧ t.ppm = s.ppm ∧ t.csExp = s.csExp ∧ t.csAct = s.csAct ∧ t.csr = s.csr ∧ t.inputs = s.inputs

/-- The two states differ in nothing but `ERR_F` and `ERR_CODE`. -/
def State.sameButFault (s t : State) : Prop :=
  t.fb = s.fb ∧ t.ppm = s.ppm ∧ t.csExp = s.csExp ∧ t.csAct = s.csAct ∧ t.csr = s.csr ∧ t.inputs = s.inputs ∧
  statusZero t.status = statusZero s.status ∧ statusRes t.status = statusRes s.status ∧
  statusPpmValid t.status = statusPpmValid s.status

/-- The host sees the same on every port (R22). -/
def State.sameOutputs (s t : State) : Prop := ∀ r : OutReg, readPort t r = readPort s r

/-- The move is a reset step (R45, R110). -/
def HostInput.isReset (m : HostInput) : Bool := m.rst

/-- The instruction reads the buffer into a register: `CSUM`, `DEC`, or a frame, whose `VALIDATE` ends in `DEC` (R13). -/
def Instr.readsBuffer : Instr → Bool
  | .ldb _ _ => false
  | .csum _ => true
  | .dec => true
  | .respReadCo2 _ _ _ _ _ _ _ => true
  | .reqReadCo2 => true

/-- The instruction is `DEC`, or a frame, whose `VALIDATE` ends in it. -/
def Instr.decodesBuffer : Instr → Bool
  | .ldb _ _ => false
  | .csum _ => false
  | .dec => true
  | .respReadCo2 _ _ _ _ _ _ _ => true
  | .reqReadCo2 => true

/-- The instruction writes buffer byte `i`: `LDB i, v`, or a frame, which is loaded at every index (R13, R57). -/
def Instr.loads (i : Fin 9) : Instr → Bool
  | .ldb idx _ => idx.toNat == i.val
  | .csum _ => false
  | .dec => false
  | .respReadCo2 _ _ _ _ _ _ _ => true
  | .reqReadCo2 => true

/-- The move issues a command of the kind `p` says. -/
def HostInput.runs (p : Instr → Bool) : HostInput → Bool
  | .edge true _ _ => false
  | .edge false false _ => false
  | .edge false true w =>
    match decodeWord w with
    | .legal i => p i
    | .illegal _ => false

/-- The move breaches host duty H8 of R105: "The host never offers a tenth byte, an offset above 2, or an illegal
word." -/
def HostInput.breachesH8 : HostInput → Bool
  | .edge true _ _ => false
  | .edge false false _ => false
  | .edge false true w =>
    match decodeWord w with
    | .legal (.ldb idx _) => decide (8 < idx.toNat)
    | .legal (.csum off) => decide (2 < off.toNat)
    | .legal .dec => false
    | .legal (.respReadCo2 _ _ _ _ _ _ _) => false
    | .legal .reqReadCo2 => false
    | .illegal _ => true

end Sys2Proof.Machine
end

