-- ==== Sys2Proof/Certificates/Slice0/Obligations.lean ====
section
/-! DEFINITION. Certificates/Slice0/Obligations.lean: the statements for the provers. Each docstring names the rules of
spec/ a statement formalises. The next state is written as an equation on the whole state, so the fields it does not
name are unchanged. What a frame row of the table does in a step is the model's choice, log entry 2. -/

open Sys2Proof Sys2Proof.Machine

/-! ### Encodings (30_encoding.md) -/

/-- R47: the command word selects a row by match and mask, the rows are disjoint, and the range limits on `idx` and
`off` are no part of the match. -/
def Obligations.CommandWordSelectsItsRow : Prop :=
  (∀ w : Word,
    (w &&& 0xF000#16 = 0x1000#16 ↔ decodeWord w = .legal (.ldb (w.extractLsb' 8 4) (w.extractLsb' 0 8))) ∧
    (w &&& 0xF0FF#16 = 0x2000#16 ↔ decodeWord w = .legal (.csum (w.extractLsb' 8 4))) ∧
    (w &&& 0xFFFF#16 = 0x3000#16 ↔ decodeWord w = .legal .dec) ∧
    ¬ (w &&& 0xF000#16 = 0x1000#16 ∧ w &&& 0xF0FF#16 = 0x2000#16) ∧
    ¬ (w &&& 0xF000#16 = 0x1000#16 ∧ w &&& 0xFFFF#16 = 0x3000#16) ∧
    ¬ (w &&& 0xF0FF#16 = 0x2000#16 ∧ w &&& 0xFFFF#16 = 0x3000#16)) ∧
  ∀ (w : Word) (s : State),
    (w &&& 0xF000#16 = 0x1000#16 → 8 < (w.extractLsb' 8 4).toNat →
      runWord w s = .next (raiseCmdFault .indexRange s)) ∧
    (w &&& 0xF0FF#16 = 0x2000#16 → 2 < (w.extractLsb' 8 4).toNat →
      runWord w s = .next (raiseCmdFault .offsetRange s))

/-- R48 without its counts: which words are illegal, and what an illegal word does. -/
def Obligations.IllegalWordsAreTheListedOnes : Prop :=
  ∀ w : Word,
    ((∃ why, decodeWord w = .illegal why) ↔
      (w.toNat / 4096 = 0 ∨ 4 ≤ w.toNat / 4096 ∨ (w.toNat / 4096 = 2 ∧ w.toNat % 256 ≠ 0) ∨
        (w.toNat / 4096 = 3 ∧ w.toNat % 4096 ≠ 0))) ∧
    ∀ why, decodeWord w = .illegal why → ∀ s : State, runWord w s = .next (raiseCmdFault .illegalCmd s)

/-- The encoder loses no bit: every instruction is decoded back from its encoding, with every operand at every value.
For a response frame whose byte 8 is not the checksum this is log entry 7 (DEDUCED; R49 gives byte 8 a further
constraint), and that the frames are instructions at all is log entry 2 (DESIGN CHOICE). -/
def Obligations.DecodeOfEncode : Prop := ∀ i : Instr, decode (encode i) = .legal i

/-- Each code has one meaning: what decodes to an instruction is that instruction's encoding. For the frames this rests
on log entries 2 (DESIGN CHOICE) and 7 (DEDUCED). -/
def Obligations.EncodeOfDecode : Prop := ∀ (c : Code) (i : Instr), decode c = .legal i → encode i = c

/-- The words of 95_test_vectors.md V70 to V79; the response frame of V3 and the request frame (log entry 2). -/
def Obligations.ListedWordsDecode : Prop :=
  decodeWord 0x10FF#16 = .legal (.ldb 0#4 0xFF#8) ∧ decodeWord 0x18A2#16 = .legal (.ldb 8#4 0xA2#8) ∧
  decodeWord 0x1900#16 = .legal (.ldb 9#4 0x00#8) ∧ decodeWord 0x2000#16 = .legal (.csum 0#4) ∧
  decodeWord 0x2100#16 = .legal (.csum 1#4) ∧ decodeWord 0x2200#16 = .legal (.csum 2#4) ∧
  decodeWord 0x2300#16 = .legal (.csum 3#4) ∧ decodeWord 0x2001#16 = .illegal .csumValue ∧
  decodeWord 0x2F01#16 = .illegal .csumValue ∧ decodeWord 0x3000#16 = .legal .dec ∧
  decodeWord 0x3001#16 = .illegal .decOperand ∧ decodeWord 0x3100#16 = .illegal .decOperand ∧
  decodeWord 0x30FF#16 = .illegal .decOperand ∧ decodeWord 0x8000#16 = .illegal .opcode ∧
  decodeWord 0xF000#16 = .illegal .opcode ∧ decodeWord 0x0000#16 = .illegal .opcode ∧ decodeWord 0x0FFF#16 = .illegal .opcode ∧
  decodeWord 0x4000#16 = .illegal .opcode ∧ decodeWord 0xFFFF#16 = .illegal .opcode ∧
  decodeTableWord 72 0xFF8602D600000000A2 = some (.respReadCo2 0x02#8 0xD6#8 0#8 0#8 0#8 0#8 0xA2#8) ∧
  decodeTableWord 72 0xFF0186000000000079 = some .reqReadCo2

/-- R49, D16: a frame as one 72-bit number has byte 0 most significant; numbers and frames correspond one to one. -/
def Obligations.FrameNumbering : Prop :=
  (∀ w : BitVec 72, bitsOfFrame (frameOfBits w) = w) ∧
  (∀ f : Frame, frameOfBits (bitsOfFrame f) = f) ∧
  ∀ (f : Frame) (i : Fin 9), f[i] = (bitsOfFrame f).extractLsb' (64 - 8 * i.val) 8

/-- The table's match and mask of R49 and R50: nine bytes select the response row by the first two bytes, the request
row by all nine, else none (R56). That byte 8 takes no part in selecting the response row, R49's constraint on it being
left to well-formedness, is log entry 7 (DEDUCED); that the frames, which are no commands, are rows the decoder answers
at all is log entry 2 (DESIGN CHOICE). -/
def Obligations.FrameRowsSelected : Prop :=
  ∀ f : Frame,
    (bitsOfFrame f &&& 0xFFFF00000000000000#72 = 0xFF8600000000000000#72 ↔
      decodeFrame f = .legal (.respReadCo2 f[2] f[3] f[4] f[5] f[6] f[7] f[8])) ∧
    (bitsOfFrame f = 0xFF0186000000000079#72 ↔ decodeFrame f = .legal .reqReadCo2) ∧
    (decodeFrame f = .illegal .notAFrameRow ↔
      (f[0] ≠ 0xFF#8 ∨ f[1] ≠ 0x86#8) ∧ bitsOfFrame f ≠ 0xFF0186000000000079#72)

/-! ### The host's moves become steps (R2, R3, R45) -/

/-- R2, R3, R45: a step takes the host's next move, which is a reset, or one command, or neither; a command is one of the
three of R47 or an illegal word. -/
def Obligations.EdgeIsResetOrOneCommandOrNothing : Prop :=
  ∀ (s : State) (m : HostInput) (rest : List HostInput), s.inputs = m :: rest →
    (m.rst = true → step s = .next { State.reset with inputs := rest }) ∧
    (m.rst = false → m.cmdValid = false → step s = .next { s with inputs := rest }) ∧
    (m.rst = false → m.cmdValid = true →
      (∃ idx val, decodeWord m.cmd = .legal (.ldb idx val) ∧ step s = exec (.ldb idx val) { s with inputs := rest }) ∨
      (∃ off, decodeWord m.cmd = .legal (.csum off) ∧ step s = exec (.csum off) { s with inputs := rest }) ∨
      (decodeWord m.cmd = .legal .dec ∧ step s = exec .dec { s with inputs := rest }) ∨
      ∃ why, decodeWord m.cmd = .illegal why ∧ step s = .next (raiseCmdFault .illegalCmd { s with inputs := rest }))

/-- A step runs the decoded instruction: when the host's next moves present a code that decodes to `i`, the step is
`exec i` on the state without those moves. A command word is one move; for the ten of a frame, of which `exec i` does the
first, this rests on log entry 2, and on log entry 7 where its byte 8 is not the checksum. -/
def Obligations.StepRunsDecodedInstruction : Prop :=
  ∀ (s : State) (c : Code) (rest : List HostInput) (i : Instr),
    s.inputs = presentCode c ++ rest → decode c = .legal i → step s = exec i { s with inputs := rest }

/-- The next step after `withFetchWord` runs the instruction the table word decodes to, on the state as it was. Rests on
log entry 3, and for the frames on log entries 2 and 7. -/
def Obligations.FetchWordRunsTableWord : Prop :=
  ∀ (s : State) (nbits w : Nat) (i : Instr),
    decodeTableWord nbits w = some i → step (s.withFetchWord nbits w) = exec i s

/-- R45, R98, R110: with `rst = 1` the step is a reset whatever stands on the command port, every register and buffer
byte becomes 0 and the host's later moves stay. R24: the reset buffer decodes to `FRAMING_ERROR`. -/
def Obligations.ResetStepClearsEverything : Prop :=
  (∀ (s : State) (cmdValid : Bool) (cmd : Word) (rest : List HostInput),
    s.inputs = .edge true cmdValid cmd :: rest →
    ∃ t, step s = .next t ∧ (∀ i : Fin 9, t.fb[i] = 0x00#8) ∧ t.status = 0x00#8 ∧ t.ppm = 0x0000#16 ∧
      t.csExp = 0x00#8 ∧ t.csAct = 0x00#8 ∧ t.csr = 0x00#8 ∧ t.inputs = rest ∧
      ∃ u, exec .dec t = .next u ∧ statusRes u.status = 2#2)

/-- R45: at an edge with neither `rst` nor `cmd_valid` no state changes. With no move left a step answers the same state:
the model's choice, log entry 1. -/
def Obligations.IdleEdgeChangesNothing : Prop :=
  (∀ (s : State) (cmd : Word) (rest : List HostInput),
    s.inputs = .edge false false cmd :: rest → step s = .next { s with inputs := rest }) ∧
  ∀ s : State, s.inputs = [] → step s = .next s

/-- R96, R125: the block never stops. Every step answers a next state and consumes one of the host's moves; every
instruction completes in every state, with those of its moves that it has not run before the host's (for a command none;
for a frame nine, log entry 2). -/
def Obligations.EveryStepCompletes : Prop :=
  (∀ s : State, ∃ t, step s = .next t ∧ t.inputs = s.inputs.tail) ∧
  ∀ (i : Instr) (s : State), ∃ t, exec i s = .next t ∧ t.inputs = (presentCode (encode i)).tail ++ s.inputs

/-- R48, R96, R98: an illegal word steps to the state with `ILLEGAL_CMD` raised and nothing else changed; 0x2F01 is such
a word and not an offset fault. -/
def Obligations.IllegalWordRaisesIllegalCmd : Prop :=
  (∀ (s : State) (w : Word) (rest : List HostInput) (why : Illegal),
    s.inputs = .edge false true w :: rest → decodeWord w = .illegal why →
    ∃ st : Byte, step s = .next { s with status := st, inputs := rest } ∧
      statusRes st = statusRes s.status ∧ statusPpmValid st = statusPpmValid s.status ∧
      statusZero st = statusZero s.status ∧ statusErrF st = true ∧
      statusErrCode st = if statusErrF s.status then statusErrCode s.status else 1#2) ∧
  runWord 0x2F01#16 State.reset = .next { State.reset with status := 0x18#8 }

/-! ### LDB (40_buffer_load.md) -/

/-- R60: `LDB` with a legal index writes that byte and nothing else; with another it raises `INDEX_RANGE` and no other
fault; its word is `0x1000 + idx * 256 + val`. -/
def Obligations.LdbWritesOneByte : Prop :=
  ∀ (idx : Idx) (val : Byte) (s : State),
    (∀ i : Fin 9, idx.toNat = i.val →
      ∃ f : Frame, exec (.ldb idx val) s = .next { s with fb := f } ∧ f[i] = val ∧
        ∀ j : Fin 9, j ≠ i → f[j] = s.fb[j]) ∧
    (8 < idx.toNat → exec (.ldb idx val) s = .next (raiseCmdFault .indexRange s)) ∧
    decodeWord (BitVec.ofNat 16 (0x1000 + idx.toNat * 256 + val.toNat)) = .legal (.ldb idx val) ∧
    decodeWord 0x13D6#16 = .legal (.ldb 3#4 0xD6#8)

/-- R61: `LDB` with `idx` in 9 to 15 writes no byte whatever `val` is, and raises `INDEX_RANGE`. -/
def Obligations.LdbIndexRangeFault : Prop :=
  (∀ (idx : Idx) (val : Byte) (s : State), 9 ≤ idx.toNat →
    (statusErrF s.status = true → exec (.ldb idx val) s = .next s) ∧
    (statusErrF s.status = false →
      ∃ st : Byte, exec (.ldb idx val) s = .next { s with status := st } ∧ statusErrF st = true ∧
        statusErrCode st = 2#2 ∧ statusRes st = statusRes s.status ∧
        statusPpmValid st = statusPpmValid s.status ∧ statusZero st = statusZero s.status) ∧
    ∀ other : Byte, exec (.ldb idx other) s = exec (.ldb idx val) s) ∧
  exec (.ldb 9#4 0x55#8) State.reset = .next { State.reset with status := 0x28#8 }

/-- R62(b), R62(c): loads of different indices may be exchanged, and of two loads of one index the later counts;
loading the value a byte already holds changes nothing. -/
def Obligations.LdbOrderDoesNotMatter : Prop :=
  (∀ (a b : Idx) (v w : Byte) (s t u : State), a ≠ b → exec (.ldb a v) s = .next t → exec (.ldb b w) s = .next u →
    exec (.ldb b w) t = exec (.ldb a v) u) ∧
  (∀ (a : Idx) (v w : Byte) (s t : State), exec (.ldb a v) s = .next t →
    exec (.ldb a w) t = exec (.ldb a w) s) ∧
  ∀ (a : Idx) (s : State) (i : Fin 9), a.toNat = i.val → exec (.ldb a s.fb[i]) s = .next s

/-! ### The checksum and CSUM (41_checksum.md) -/

/-- R65: the checksum of a span is `(256 - s) mod 256`, the low 8 bits of `0x100 - s`, and `((s XOR 0xFF) + 1) mod 256`,
for `s` the sum of the seven bytes modulo 256. -/
def Obligations.ChecksumHasThreeForms : Prop :=
  ∀ (fb : Frame) (o : Fin 3),
    (checksum fb o).toNat = (256 - spanSum fb o % 256) % 256 ∧
    checksum fb o = (0x100#9 - BitVec.ofNat 9 (spanSum fb o % 256)).setWidth 8 ∧
    checksum fb o = (BitVec.ofNat 8 (spanSum fb o) ^^^ 0xFF#8) + 1#8

/-- R66: the checksum law for every seven bytes, the checksum being the only byte with the property, and `DEC`'s test
being the test that bytes 1 to 8 sum to 0 modulo 256. -/
def Obligations.ChecksumLaw : Prop :=
  (∀ l : List Byte, l.length = 7 →
    ((neg8 (sum8 l)).toNat + (l.map BitVec.toNat).sum) % 256 = 0 ∧ (l.map BitVec.toNat).sum ≤ 1785 ∧
    ∀ c : Byte, (c.toNat + (l.map BitVec.toNat).sum) % 256 = 0 → c = neg8 (sum8 l)) ∧
  (∀ (fb : Frame) (o : Fin 3), ∃ l : List Byte, l.length = 7 ∧ (l.map BitVec.toNat).sum = spanSum fb o ∧
    checksum fb o = neg8 (sum8 l)) ∧
  ∀ fb : Frame, checksum fb 1 = fb[8] ↔ (spanSum fb 1 + fb[8].toNat) % 256 = 0

/-- R70(a), R70(c): a change of one byte of the span changes the checksum by the difference; bytes 0 and 8 are outside
the span of bytes 1 to 7. -/
def Obligations.ChecksumSeesEveryByteOfItsSpan : Prop :=
  ∀ (fb : Frame) (i : Fin 9) (v : Byte),
    (1 ≤ i.val ∧ i.val ≤ 7 →
      checksum (fb.set i v) 1 = checksum fb 1 - (v - fb[i]) ∧
      (v ≠ fb[i] → checksum (fb.set i v) 1 ≠ checksum fb 1)) ∧
    (i.val = 0 ∨ i.val = 8 → checksum (fb.set i v) 1 = checksum fb 1)

/-- R70(b): no reordering of the bytes of a span is detected; exchanging bytes 2 and 3 of a well-formed response frame
gives a well-formed response frame. -/
def Obligations.ChecksumBlindToOrder : Prop :=
  (∀ l m : List Byte, l.Perm m → neg8 (sum8 l) = neg8 (sum8 m)) ∧
  ∀ f : Frame, wellFormedResponse f = true →
    wellFormedResponse ((f.set 2 f[3]).set 3 f[2]) = true ∧
    (concentration ((f.set 2 f[3]).set 3 f[2])).toNat = f[3].toNat * 256 + f[2].toNat

/-- R68: `CSUM off` with `off` in 0 to 2 writes `CSR` with the checksum of the span and nothing else; with another it
raises `OFFSET_RANGE`; the rule's example. -/
def Obligations.CsumWritesCsr : Prop :=
  (∀ (off : Idx) (s : State),
    (∀ o : Fin 3, off.toNat = o.val →
      ∃ c : Byte, exec (.csum off) s = .next { s with csr := c } ∧
        c.toNat = (256 - spanSum s.fb o % 256) % 256) ∧
    (2 < off.toNat → exec (.csum off) s = .next (raiseCmdFault .offsetRange s)) ∧
    decodeWord (BitVec.ofNat 16 (0x2000 + off.toNat * 256)) = .legal (.csum off) ∧
    ∀ val : Byte, val ≠ 0x00#8 → ∃ why,
      decodeWord (BitVec.ofNat 16 (0x2000 + off.toNat * 256 + val.toNat)) = .illegal why) ∧
  ∀ s : State, s.fb = Config.requestFrame →
    exec (.csum 1#4) s = .next { s with csr := 0x79#8 } ∧
    exec (.csum 0#4) s = .next { s with csr := 0x7A#8 } ∧
    exec (.csum 2#4) s = .next { s with csr := 0x01#8 }

/-- R69: `CSUM` with `off` in 3 to 15 leaves `CSR` unchanged and raises `OFFSET_RANGE`. -/
def Obligations.CsumOffsetRangeFault : Prop :=
  (∀ (off : Idx) (s : State), 3 ≤ off.toNat →
    (statusErrF s.status = true → exec (.csum off) s = .next s) ∧
    (statusErrF s.status = false →
      ∃ st : Byte, exec (.csum off) s = .next { s with status := st } ∧ statusErrF st = true ∧
        statusErrCode st = 3#2 ∧ statusRes st = statusRes s.status ∧
        statusPpmValid st = statusPpmValid s.status ∧ statusZero st = statusZero s.status)) ∧
  exec (.csum 3#4) State.reset = .next { State.reset with status := 0x38#8 }

/-- R71: `CSUM` on the all-zero buffer gives 0x00, depends on the buffer and the offset alone, and `CSUM 1` then `DEC`
gives `CSR = CS_EXP`. -/
def Obligations.CsumAgreesWithDec : Prop :=
  (∀ (off : Idx) (s : State), off.toNat ≤ 2 → s.fb = Vector.replicate 9 0x00#8 →
    exec (.csum off) s = .next { s with csr := 0x00#8 }) ∧
  (∀ (off : Idx) (s u t v : State), s.fb = u.fb → off.toNat ≤ 2 →
    exec (.csum off) s = .next t → exec (.csum off) u = .next v → t.csr = v.csr) ∧
  ∀ s t u : State, exec (.csum 1#4) s = .next t → exec .dec t = .next u → u.csr = u.csExp

/-! ### DEC (42_frame_decode.md) -/

/-- R78: what `DEC` writes and what it leaves, in its three cases; its encoding; the rule's example. -/
def Obligations.DecWritesItsResult : Prop :=
  (∀ s : State, ∃ (st : Byte) (p : BitVec 16),
    exec .dec s = .next { s with status := st, ppm := p, csExp := checksum s.fb 1, csAct := s.fb[8] } ∧
    statusErrF st = statusErrF s.status ∧ statusErrCode st = statusErrCode s.status ∧
    statusZero st = statusZero s.status ∧
    (s.fb[0] ≠ 0xFF#8 ∨ s.fb[1] ≠ 0x86#8 →
      statusRes st = 2#2 ∧ p = s.ppm ∧ statusPpmValid st = statusPpmValid s.status) ∧
    (s.fb[0] = 0xFF#8 → s.fb[1] = 0x86#8 → checksum s.fb 1 ≠ s.fb[8] →
      statusRes st = 3#2 ∧ p = s.ppm ∧ statusPpmValid st = statusPpmValid s.status) ∧
    (s.fb[0] = 0xFF#8 → s.fb[1] = 0x86#8 → checksum s.fb 1 = s.fb[8] →
      statusRes st = 1#2 ∧ p.toNat = s.fb[2].toNat * 256 + s.fb[3].toNat ∧ statusPpmValid st = true)) ∧
  (∀ low : BitVec 12, (decodeWord (0x3#4 ++ low) = .legal .dec ↔ low = 0#12) ∧
    (low ≠ 0#12 → ∃ why, decodeWord (0x3#4 ++ low) = .illegal why)) ∧
  ∀ s : State, s.fb = #v[0xFF#8, 0x86#8, 0x02#8, 0xD6#8, 0#8, 0#8, 0#8, 0#8, 0xA2#8] →
    ∃ st : Byte, exec .dec s = .next { s with status := st, ppm := 726#16, csExp := 0xA2#8, csAct := 0xA2#8 } ∧
      statusRes st = 1#2 ∧ statusPpmValid st = true

/-- R79: the header is checked first, the checksum second, and the extraction happens only after both pass. -/
def Obligations.HeaderCheckedBeforeChecksum : Prop :=
  ∀ s : State, ∃ t, exec .dec s = .next t ∧
    (statusRes t.status = 2#2 ↔ ¬ (s.fb[0] = 0xFF#8 ∧ s.fb[1] = 0x86#8)) ∧
    (statusRes t.status = 3#2 → s.fb[0] = 0xFF#8 ∧ s.fb[1] = 0x86#8) ∧
    (t.ppm ≠ s.ppm ∨ statusPpmValid t.status ≠ statusPpmValid s.status →
      s.fb[0] = 0xFF#8 ∧ s.fb[1] = 0x86#8 ∧ (spanSum s.fb 1 + s.fb[8].toNat) % 256 = 0)

/-- R77: with header and checksum correct the concentration is `FB[2] * 256 + FB[3]`; every value 0 to 65535 is the
result of some buffer; bytes 4 to 7 take no part. -/
def Obligations.ConcentrationIsBigEndian : Prop :=
  (∀ s : State, s.fb[0] = 0xFF#8 → s.fb[1] = 0x86#8 → checksum s.fb 1 = s.fb[8] →
    ∃ t, exec .dec s = .next t ∧ t.ppm.toNat = s.fb[2].toNat * 256 + s.fb[3].toNat) ∧
  ∀ (p : BitVec 16) (r4 r5 r6 r7 : Byte) (s : State), ∃ (c : Byte) (t : State),
    exec .dec { s with fb := #v[0xFF#8, 0x86#8, p.extractLsb' 8 8, p.extractLsb' 0 8, r4, r5, r6, r7, c] } =
      .next t ∧ t.ppm = p

/-- R51: `DEC` gives `OK` exactly for the buffers that hold a well-formed response frame. -/
def Obligations.OkExactlyForWellFormedFrames : Prop :=
  ∀ s : State, ∃ t, exec .dec s = .next t ∧
    (statusRes t.status = 1#2 ↔
      s.fb[0] = 0xFF#8 ∧ s.fb[1] = 0x86#8 ∧ s.fb[8].toNat = (256 - spanSum s.fb 1 % 256) % 256)

/-- R81: a second `DEC` with no load between changes nothing. -/
def Obligations.DecRepeatedChangesNothing : Prop :=
  ∀ s t : State, exec .dec s = .next t → exec .dec t = .next t

/-- R78, R80: the result of `DEC` is a function of the nine buffer bytes alone. -/
def Obligations.DecDependsOnBufferAlone : Prop :=
  ∀ s u t v : State, s.fb = u.fb → exec .dec s = .next t → exec .dec u = .next v →
    statusRes t.status = statusRes v.status ∧ t.csExp = v.csExp ∧ t.csAct = v.csAct ∧
    (statusRes t.status = 1#2 → t.ppm = v.ppm)

/-- R82: a well-formed response frame with exactly one byte changed never decodes; which error it gives, and what
`CS_EXP` and `CS_ACT` then hold. -/
def Obligations.SingleByteCorruptionIsCaught : Prop :=
  ∀ (f : Frame) (i : Fin 9) (v : Byte) (s : State), wellFormedResponse f = true → v ≠ f[i] → s.fb = f.set i v →
    ∃ t, exec .dec s = .next t ∧ t.ppm = s.ppm ∧ statusPpmValid t.status = statusPpmValid s.status ∧
      (i.val ≤ 1 → statusRes t.status = 2#2 ∧ (i.val = 0 ↔ t.csExp = t.csAct)) ∧
      (2 ≤ i.val ∧ i.val ≤ 7 → statusRes t.status = 3#2 ∧ t.csExp ≠ t.csAct ∧ t.csAct - t.csExp = v - f[i]) ∧
      (i.val = 8 → statusRes t.status = 3#2 ∧ t.csExp = f[8] ∧ t.csAct = v)

/-- R53, R84: a constructed frame is well formed, every well-formed frame is a constructed one, and `DEC` recovers the
concentration. -/
def Obligations.DecodeInvertsEncodeResponse : Prop :=
  (∀ (p : BitVec 16) (r4 r5 r6 r7 : Byte) (s : State), s.fb = encodeResponse p r4 r5 r6 r7 →
    ∃ t, exec .dec s = .next t ∧ statusRes t.status = 1#2 ∧ t.ppm = p ∧ statusPpmValid t.status = true) ∧
  (∀ (p : BitVec 16) (r4 r5 r6 r7 : Byte), wellFormedResponse (encodeResponse p r4 r5 r6 r7) = true) ∧
  ∀ f : Frame, wellFormedResponse f = true → encodeResponse (concentration f) f[4] f[5] f[6] f[7] = f

/-! ### The frames of the table (R49, R50, R57) -/

/-- R49, R57: a response frame received and decoded. Its first step is `LDB 0, 0xFF`, and after the nine other commands,
one step each, the buffer holds it and the result is `OK` with the concentration or `CHECKSUM_MISMATCH` with both
checksums. Rests on log entry 2, and on log entry 7 where byte 8 is not the checksum. -/
def Obligations.ResponseFrameIsLoadedAndDecoded : Prop :=
  ∀ (hi lo r4 r5 r6 r7 cs : Byte) (s : State), ∃ (t : State) (st : Byte) (p : BitVec 16) (e : Byte),
    exec (.respReadCo2 hi lo r4 r5 r6 r7 cs) s = .next t ∧
    t = { s with fb := s.fb.set 0 0xFF#8, inputs := t.inputs } ∧ t.inputs.drop 9 = s.inputs ∧
    Host.Core.run Sys2Proof.core 9 t =
      .next { s with fb := #v[0xFF#8, 0x86#8, hi, lo, r4, r5, r6, r7, cs], status := st, ppm := p, csExp := e,
                     csAct := cs } ∧
    (e.toNat + 0x86 + hi.toNat + lo.toNat + r4.toNat + r5.toNat + r6.toNat + r7.toNat) % 256 = 0 ∧
    statusErrF st = statusErrF s.status ∧ statusErrCode st = statusErrCode s.status ∧
    statusZero st = statusZero s.status ∧
    (e = cs → statusRes st = 1#2 ∧ p.toNat = hi.toNat * 256 + lo.toNat ∧ statusPpmValid st = true) ∧
    (e ≠ cs → statusRes st = 3#2 ∧ p = s.ppm ∧ statusPpmValid st = statusPpmValid s.status)

/-- R50, R85(b): the request frame received and decoded. Its first step is `LDB 0, 0xFF`, and after the nine other
commands the result is a framing error, with 0x79 in both checksum registers. Rests on log entry 2. -/
def Obligations.RequestFrameIsAFramingError : Prop :=
  ∀ s : State, ∃ (t : State) (st : Byte),
    exec .reqReadCo2 s = .next t ∧
    t = { s with fb := s.fb.set 0 0xFF#8, inputs := t.inputs } ∧ t.inputs.drop 9 = s.inputs ∧
    Host.Core.run Sys2Proof.core 9 t =
      .next { s with fb := #v[0xFF#8, 0x01#8, 0x86#8, 0#8, 0#8, 0#8, 0#8, 0#8, 0x79#8], status := st,
                     csExp := 0x79#8, csAct := 0x79#8 } ∧
    statusRes st = 2#2 ∧ statusErrF st = statusErrF s.status ∧ statusErrCode st = statusErrCode s.status ∧
    statusZero st = statusZero s.status ∧ statusPpmValid st = statusPpmValid s.status

/-- R3, R57: `VALIDATE` of any nine bytes is ten commands and takes ten steps, each to a state of its own. After `k` of
them, up to nine, the first `k` bytes are loaded and nothing else has changed; the tenth is `DEC` on the loaded frame. -/
def Obligations.ValidateRunsAsTenCommands : Prop :=
  ∀ (f : Frame) (s : State) (rest ms : List HostInput),
    assemble (.validate (f.toList.map BitVec.toNat)) = some ms → s.inputs = ms ++ rest →
    ms.length = 10 ∧ ms = presentCode (.frame f) ∧
    (∀ k : Nat, k ≤ 9 → ∃ g : Frame,
      Host.Core.run Sys2Proof.core k s = .next { s with fb := g, inputs := ms.drop k ++ rest } ∧
      ∀ i : Fin 9, g[i] = if i.val < k then f[i] else s.fb[i]) ∧
    Host.Core.run Sys2Proof.core 10 s = exec .dec { s with fb := f, inputs := rest }

/-- R37, R57, R62(c): the nine loads of a frame give the same buffer in whatever order the host issues them, and change
nothing else. -/
def Obligations.FrameLoadsInAnyOrder : Prop :=
  ∀ (f : Frame) (s : State) (rest ms order : List HostInput),
    assemble (.ldf (f.toList.map BitVec.toNat)) = some ms → order.Perm ms → s.inputs = order ++ rest →
    Host.Core.run Sys2Proof.core 9 s = .next { s with fb := f, inputs := rest }

/-- R54, R57: what the assembler makes of each kind of line, and which operands it rejects. -/
def Obligations.AssemblerWordsDecode : Prop :=
  (∀ idx val : Nat,
    (idx < 16 → val < 256 → ∃ w, assemble (.ldb idx val) = some [.edge false true w] ∧
      w.toNat = 0x1000 + idx * 256 + val ∧ decodeWord w = .legal (.ldb (BitVec.ofNat 4 idx) (BitVec.ofNat 8 val))) ∧
    (16 ≤ idx ∨ 256 ≤ val → assemble (.ldb idx val) = none)) ∧
  (∀ off : Nat,
    (off < 16 → ∃ w, assemble (.csum off) = some [.edge false true w] ∧ w.toNat = 0x2000 + off * 256 ∧
      decodeWord w = .legal (.csum (BitVec.ofNat 4 off))) ∧
    (16 ≤ off → assemble (.csum off) = none)) ∧
  (∃ w, assemble .dec = some [.edge false true w] ∧ w.toNat = 0x3000 ∧ decodeWord w = .legal .dec) ∧
  (∀ w : Nat,
    (w < 65536 → ∃ v : Word, assemble (.word w) = some [.edge false true v] ∧ v.toNat = w) ∧
    (65536 ≤ w → assemble (.word w) = none)) ∧
  (∃ m : HostInput, assemble .reset = some [m] ∧ m.rst = true) ∧
  ∀ bytes : List Nat,
    (bytes.length = 9 → (∀ b ∈ bytes, b < 256) →
      ∃ ms : List HostInput, assemble (.ldf bytes) = some ms ∧ ms.length = 9 ∧
        (∀ (i : Nat) (h : i < bytes.length), ∃ w, ms[i]? = some (.edge false true w) ∧
          decodeWord w = .legal (.ldb (BitVec.ofNat 4 i) (BitVec.ofNat 8 bytes[i]))) ∧
        ∃ w, assemble (.validate bytes) = some (ms ++ [.edge false true w]) ∧ decodeWord w = .legal .dec) ∧
    (bytes.length ≠ 9 ∨ (∃ b ∈ bytes, 256 ≤ b) → assemble (.ldf bytes) = none ∧ assemble (.validate bytes) = none)

/-! ### STATUS and the output ports (10_state.md) -/

/-- R15, R22: in a state whose bits 7:6 are 0, `STATUS` is `(ERR_CODE << 4) | (ERR_F << 3) | (PPM_VALID << 2) | RES`, and
the port of register 0 shows it. -/
def Obligations.StatusIsItsFields : Prop :=
  ∀ s : State, statusZero s.status = 0#2 →
    (readPort s .status).toNat = (statusErrCode s.status).toNat * 16 + (statusErrF s.status).toNat * 8 +
      (statusPpmValid s.status).toNat * 4 + (statusRes s.status).toNat

/-! ### Whole-machine rules -/

/-- R16: at an edge without reset `RES` is written by `DEC` and by nothing else, and `DEC` never writes `NONE`; reset
writes `NONE`. -/
def Obligations.ResWrittenOnlyByDec : Prop :=
  ∀ (s t : State) (rst valid : Bool) (cmd : Word) (rest : List HostInput),
    s.inputs = .edge rst valid cmd :: rest → step s = .next t →
    (rst = true → statusRes t.status = 0#2) ∧
    (rst = false → valid = true → decodeWord cmd = .legal .dec →
      (statusRes t.status = 1#2 ∧ wellFormedResponse s.fb = true ∧ t.ppm = concentration s.fb) ∨
      (statusRes t.status = 2#2 ∧ (s.fb[0] ≠ 0xFF#8 ∨ s.fb[1] ≠ 0x86#8)) ∨
      (statusRes t.status = 3#2 ∧ s.fb[0] = 0xFF#8 ∧ s.fb[1] = 0x86#8 ∧ checksum s.fb 1 ≠ s.fb[8])) ∧
    (rst = false → ¬ (valid = true ∧ decodeWord cmd = .legal .dec) → statusRes t.status = statusRes s.status)

/-- R17: at an edge without reset `PPM` is written when, and only when, the command is `DEC` and its result is `OK`, with
`FB[2] ‖ FB[3]`. -/
def Obligations.PpmWrittenOnlyByOkDec : Prop :=
  ∀ (s t : State) (valid : Bool) (cmd : Word) (rest : List HostInput),
    s.inputs = .edge false valid cmd :: rest → step s = .next t →
    (valid = true ∧ decodeWord cmd = .legal .dec ∧ wellFormedResponse s.fb = true →
      t.ppm.toNat = s.fb[2].toNat * 256 + s.fb[3].toNat ∧ statusRes t.status = 1#2) ∧
    (¬ (valid = true ∧ decodeWord cmd = .legal .dec ∧ wellFormedResponse s.fb = true) → t.ppm = s.ppm)

/-- R18: `PPM_VALID` becomes 1 at the first `DEC` whose result is `OK` and stays 1 until reset, which makes it 0; while it
is 0, `PPM` holds its reset value. -/
def Obligations.PpmValidSetByFirstOk : Prop :=
  ∀ (s t : State) (rst valid : Bool) (cmd : Word) (rest : List HostInput),
    s.inputs = .edge rst valid cmd :: rest → step s = .next t →
    (rst = true → statusPpmValid t.status = false ∧ t.ppm = 0x0000#16) ∧
    (rst = false → (statusPpmValid t.status = true ↔ statusPpmValid s.status = true ∨
      (valid = true ∧ decodeWord cmd = .legal .dec ∧ wellFormedResponse s.fb = true))) ∧
    ((statusPpmValid s.status = false → s.ppm = 0x0000#16) →
      statusPpmValid t.status = false → t.ppm = 0x0000#16)

/-- R19: which edges set `ERR_F`, the code of the first cause, and that later faults change neither field; while
`ERR_F = 0`, `ERR_CODE = 0`. -/
def Obligations.FirstFaultIsRecorded : Prop :=
  ∀ (s t : State) (rst valid : Bool) (cmd : Word) (rest : List HostInput),
    s.inputs = .edge rst valid cmd :: rest → step s = .next t →
    (rst = true → statusErrF t.status = false ∧ statusErrCode t.status = 0#2) ∧
    (rst = false → statusErrF s.status = true →
      statusErrF t.status = true ∧ statusErrCode t.status = statusErrCode s.status) ∧
    (rst = false → statusErrF s.status = false →
      (valid = true → (∃ why, decodeWord cmd = .illegal why) →
        statusErrF t.status = true ∧ statusErrCode t.status = 1#2) ∧
      (valid = true → (∃ idx val, decodeWord cmd = .legal (.ldb idx val) ∧ 8 < idx.toNat) →
        statusErrF t.status = true ∧ statusErrCode t.status = 2#2) ∧
      (valid = true → (∃ off, decodeWord cmd = .legal (.csum off) ∧ 2 < off.toNat) →
        statusErrF t.status = true ∧ statusErrCode t.status = 3#2) ∧
      (valid = false ∨ (∃ idx val, decodeWord cmd = .legal (.ldb idx val) ∧ idx.toNat ≤ 8) ∨
          (∃ off, decodeWord cmd = .legal (.csum off) ∧ off.toNat ≤ 2) ∨ decodeWord cmd = .legal .dec →
        statusErrF t.status = false ∧ statusErrCode t.status = statusErrCode s.status)) ∧
    ((statusErrF s.status = false → statusErrCode s.status = 0#2) →
      statusErrF t.status = false → statusErrCode t.status = 0#2)

/-- R20: at an edge without reset `CS_EXP` and `CS_ACT` are written by every `DEC`, whatever its result, and by nothing
else. -/
def Obligations.ChecksumRegistersWrittenOnlyByDec : Prop :=
  ∀ (s t : State) (valid : Bool) (cmd : Word) (rest : List HostInput),
    s.inputs = .edge false valid cmd :: rest → step s = .next t →
    (valid = true ∧ decodeWord cmd = .legal .dec →
      t.csExp = checksum s.fb 1 ∧ t.csAct = s.fb[8] ∧ (statusRes t.status = 1#2 → t.csExp = t.csAct)) ∧
    (¬ (valid = true ∧ decodeWord cmd = .legal .dec) → t.csExp = s.csExp ∧ t.csAct = s.csAct)

/-- R21: at an edge `CSR` is written by `CSUM off` with `off` in 0 to 2, with `checksum(FB, off)`, and by nothing else
except reset. -/
def Obligations.CsrWrittenOnlyByCsum : Prop :=
  ∀ (s t : State) (rst valid : Bool) (cmd : Word) (rest : List HostInput),
    s.inputs = .edge rst valid cmd :: rest → step s = .next t →
    (rst = true → t.csr = 0x00#8) ∧
    (rst = false → ∀ o : Fin 3, valid = true → decodeWord cmd = .legal (.csum (BitVec.ofNat 4 o.val)) →
      t.csr = checksum s.fb o) ∧
    (rst = false → (∀ o : Fin 3, ¬ (valid = true ∧ decodeWord cmd = .legal (.csum (BitVec.ofNat 4 o.val)))) →
      t.csr = s.csr)

/-- R13, R14: at an edge without reset a buffer byte changes only by the `LDB` that names it, and then to its `val`. -/
def Obligations.BufferWrittenOnlyByLdb : Prop :=
  ∀ (s t : State) (valid : Bool) (cmd : Word) (rest : List HostInput) (i : Fin 9),
    s.inputs = .edge false valid cmd :: rest → step s = .next t →
    t.fb[i] = s.fb[i] ∨
      (valid = true ∧ ∃ idx, decodeWord cmd = .legal (.ldb idx t.fb[i]) ∧ idx.toNat = i.val)

/-- R98, R99: events are precise. At an edge without reset, a step that raises a command fault changes `ERR_F` and
`ERR_CODE` only, and no step has a command fault and a decode result together. -/
def Obligations.EventsArePrecise : Prop :=
  ∀ (s t : State) (valid : Bool) (cmd : Word) (rest : List HostInput),
    s.inputs = .edge false valid cmd :: rest → step s = .next t →
    (statusErrF t.status ≠ statusErrF s.status ∨ statusErrCode t.status ≠ statusErrCode s.status) →
    t = { s with status := t.status, inputs := rest } ∧ statusRes t.status = statusRes s.status ∧
    statusPpmValid t.status = statusPpmValid s.status ∧ statusZero t.status = statusZero s.status

/-- R25(g): `PPM_VALID` and `ERR_F` never change from 1 to 0 except by reset, over any number of steps. -/
def Obligations.StickyBitsStay : Prop :=
  ∀ (k : Nat) (s t : State), (∀ m ∈ s.inputs, m.isReset = false) →
    Host.Core.run Sys2Proof.core k s = .next t →
    (statusPpmValid s.status = true → statusPpmValid t.status = true) ∧
    (statusErrF s.status = true → statusErrF t.status = true ∧ statusErrCode t.status = statusErrCode s.status)

/-- R95, R105 H8: from a state without a recorded fault, a run without reset records a fault exactly when one of the moves
it took breaches duty H8. -/
def Obligations.FaultExactlyOnBreach : Prop :=
  ∀ (k : Nat) (s t : State), s.clean = true → (∀ m ∈ s.inputs, m.isReset = false) →
    Host.Core.run Sys2Proof.core k s = .next t →
    (t.clean = true ↔ ∀ m ∈ s.inputs.take k, m.breachesH8 = false)

/-- R96: a recorded fault changes nothing else of what the block does. Two states that differ in `ERR_F` and `ERR_CODE`
only differ in those only after any number of steps. -/
def Obligations.FaultDoesNotDisturbTheRun : Prop :=
  ∀ (k : Nat) (s u t v : State), s.sameButFault u →
    Host.Core.run Sys2Proof.core k s = .next t → Host.Core.run Sys2Proof.core k u = .next v → t.sameButFault v

/-- R13: the host cannot read the buffer. Two states that differ in the buffer only show the same on every port after
any number of steps none of which is a `CSUM` or a `DEC`. -/
def Obligations.BufferIsNotReadable : Prop :=
  ∀ (k : Nat) (s u t v : State), s.sameButBuffer u → (∀ m ∈ s.inputs, m.runs Instr.readsBuffer = false) →
    Host.Core.run Sys2Proof.core k s = .next t → Host.Core.run Sys2Proof.core k u = .next v → t.sameOutputs v

/-- R37: after `LDB i, v` the buffer byte is `v` until another load of that byte or a reset, over any number of steps. -/
def Obligations.BufferByteHoldsTheLastLoad : Prop :=
  ∀ (k : Nat) (s t : State) (i : Fin 9) (idx : Idx) (v : Byte) (cmd : Word) (rest : List HostInput),
    s.inputs = .edge false true cmd :: rest → decodeWord cmd = .legal (.ldb idx v) → idx.toNat = i.val →
    (∀ m ∈ rest, m.isReset = false ∧ m.runs (Instr.loads i) = false) →
    Host.Core.run Sys2Proof.core (k + 1) s = .next t → t.fb[i] = v

/-- R17, R91: over any number of steps none of which decodes or resets, the reading, its valid flag, `RES` and the
checksum report stay as they were. -/
def Obligations.ReadingOutlivesOtherCommands : Prop :=
  ∀ (k : Nat) (s t : State), (∀ m ∈ s.inputs, m.isReset = false ∧ m.runs Instr.decodesBuffer = false) →
    Host.Core.run Sys2Proof.core k s = .next t →
    t.ppm = s.ppm ∧ statusPpmValid t.status = statusPpmValid s.status ∧ statusRes t.status = statusRes s.status ∧
    t.csExp = s.csExp ∧ t.csAct = s.csAct

/-- R25(a) to (f): the invariant holds after every step from every state in which it holds, whatever the host's move. -/
def Obligations.InvariantKeptByEveryStep : Prop :=
  ∀ s t : State, s.Inv → step s = .next t → t.Inv

/-- R24, R25: the invariant holds in the reset state, which is clean and holds no reading. -/
def Obligations.InvariantHoldsAtReset : Prop :=
  State.reset.Inv ∧ State.reset.clean = true ∧ State.reset.readingValid = false
end

