-- ==== Sys2Proof/Laws/Arith.lean ====
section
/-! SUPPORT. Laws/Arith.lean: the arithmetic primitives in terms of BitVec addition and negation, and the checksum as a
formula over the seven bytes (R65). -/

namespace Sys2Proof.Machine

/-- `add8` is 8-bit addition. -/
theorem add8_eq (a b : Byte) : add8 a b = a + b := by
  apply BitVec.eq_of_toNat_eq
  simp [add8]

/-- `neg8` is 8-bit negation. -/
theorem neg8_eq (s : Byte) : neg8 s = -s := by
  apply BitVec.eq_of_toNat_eq
  simp [neg8]

/-- `sum8` is the sum of a list. -/
theorem sum8_eq (l : List Byte) : sum8 l = l.sum := by
  have h : ∀ (l : List Byte) (a : Byte), l.foldl add8 a = a + l.sum := by
    intro l
    induction l with
    | nil => simp
    | cons x t ih =>
      intro a
      rw [List.foldl_cons, ih, add8_eq, List.sum_cons, BitVec.add_assoc]
  rw [sum8, h]
  simp

/-- The seven bytes of a span, one by one. -/
theorem memRead_span (fb : Frame) (o : Nat) (h : o + 7 ≤ 9) :
    memRead fb o 7 h = [fb[o], fb[o + 1], fb[o + 2], fb[o + 3], fb[o + 4], fb[o + 5], fb[o + 6]] := by
  simp [memRead, List.ofFn_succ]

/-- The checksum of a span as a formula. -/
theorem checksum_eq (fb : Frame) (off : Fin 3) :
    checksum fb off = -(fb[off.val] + fb[off.val + 1] + fb[off.val + 2] + fb[off.val + 3] + fb[off.val + 4] +
      fb[off.val + 5] + fb[off.val + 6]) := by
  rw [checksum, neg8_eq, sum8_eq, memRead_span]
  simp [BitVec.add_assoc]

end Sys2Proof.Machine
end

