-- ==== Sys2Proof/Laws/Decode.lean ====
section
/-! SUPPORT. Laws/Decode.lean: the rows' match and mask as equations on the fields of a command word (R46, R47), the
fields of a joined word, and the bytes of a frame's number. -/

namespace Sys2Proof

/-! ### Fields -/

/-- `op` as a number. -/
theorem fieldOp_toNat (w : Word) : (fieldOp w).toNat = w.toNat / 4096 % 16 := by
  simp [fieldOp, Nat.shiftRight_eq_div_pow]

/-- `idx` as a number. -/
theorem fieldIdx_toNat (w : Word) : (fieldIdx w).toNat = w.toNat / 256 % 16 := by
  simp [fieldIdx, Nat.shiftRight_eq_div_pow]

/-- `val` as a number. -/
theorem fieldVal_toNat (w : Word) : (fieldVal w).toNat = w.toNat % 256 := by
  simp [fieldVal]

/-- A joined word as a number. -/
theorem joinFields_toNat (op : BitVec 4) (idx : Idx) (val : Byte) :
    (joinFields op idx val).toNat = op.toNat * 4096 + idx.toNat * 256 + val.toNat := by
  have := op.isLt
  have := idx.isLt
  have := val.isLt
  simp [joinFields]
  omega

@[simp] theorem fieldOp_joinFields (op : BitVec 4) (idx : Idx) (val : Byte) :
    fieldOp (joinFields op idx val) = op := by
  apply BitVec.eq_of_toNat_eq
  have := op.isLt
  have := idx.isLt
  have := val.isLt
  rw [fieldOp_toNat, joinFields_toNat]
  omega

@[simp] theorem fieldIdx_joinFields (op : BitVec 4) (idx : Idx) (val : Byte) :
    fieldIdx (joinFields op idx val) = idx := by
  apply BitVec.eq_of_toNat_eq
  have := op.isLt
  have := idx.isLt
  have := val.isLt
  rw [fieldIdx_toNat, joinFields_toNat]
  omega

@[simp] theorem fieldVal_joinFields (op : BitVec 4) (idx : Idx) (val : Byte) :
    fieldVal (joinFields op idx val) = val := by
  apply BitVec.eq_of_toNat_eq
  have := op.isLt
  have := idx.isLt
  have := val.isLt
  rw [fieldVal_toNat, joinFields_toNat]
  omega

/-! ### The fields of the three commands' words -/

@[simp] theorem fieldOp_ldbWord (idx : Idx) (val : Byte) : fieldOp (ldbWord idx val) = 0x1#4 := fieldOp_joinFields ..
@[simp] theorem fieldIdx_ldbWord (idx : Idx) (val : Byte) : fieldIdx (ldbWord idx val) = idx := fieldIdx_joinFields ..
@[simp] theorem fieldVal_ldbWord (idx : Idx) (val : Byte) : fieldVal (ldbWord idx val) = val := fieldVal_joinFields ..
@[simp] theorem fieldOp_csumWord (off : Idx) : fieldOp (csumWord off) = 0x2#4 := fieldOp_joinFields ..
@[simp] theorem fieldIdx_csumWord (off : Idx) : fieldIdx (csumWord off) = off := fieldIdx_joinFields ..
@[simp] theorem fieldVal_csumWord (off : Idx) : fieldVal (csumWord off) = 0x00#8 := fieldVal_joinFields ..
@[simp] theorem decWord_eq : decWord = 0x3000#16 := by decide

/-- A word is its three fields joined (R46). -/
theorem joinFields_fields (w : Word) : joinFields (fieldOp w) (fieldIdx w) (fieldVal w) = w := by
  apply BitVec.eq_of_toNat_eq
  have := w.isLt
  rw [joinFields_toNat, fieldOp_toNat, fieldIdx_toNat, fieldVal_toNat]
  omega

/-! ### Rows -/

/-- LDB's row is `op = 0x1`. -/
theorem rowLdb_selects {w : Word} : rowLdb.selects w = true ↔ fieldOp w = 0x1#4 := by
  simp only [CmdRow.selects, rowLdb, beq_iff_eq]
  constructor <;> intro h
  · ext i hi
    have := congrArg (·.getLsbD (12 + i)) h
    interval_cases i <;> simpa [fieldOp] using this
  · ext i hi
    by_cases hlo : i < 12
    · interval_cases i <;> simp
    · have := congrArg (·.getLsbD (i - 12)) h
      interval_cases i <;> first | omega | simpa [fieldOp] using this

/-- CSUM's row is `op = 0x2` with `val = 0x00`. -/
theorem rowCsum_selects {w : Word} : rowCsum.selects w = true ↔ fieldOp w = 0x2#4 ∧ fieldVal w = 0x00#8 := by
  simp only [CmdRow.selects, rowCsum, beq_iff_eq]
  constructor
  · intro h
    constructor
    · ext i hi
      have := congrArg (·.getLsbD (12 + i)) h
      interval_cases i <;> simpa [fieldOp] using this
    · ext i hi
      have := congrArg (·.getLsbD i) h
      interval_cases i <;> simpa [fieldVal] using this
  · rintro ⟨h, hv⟩
    ext i hi
    by_cases h8 : i < 8
    · have := congrArg (·.getLsbD i) hv
      interval_cases i <;> simpa [fieldVal] using this
    · by_cases h12 : i < 12
      · interval_cases i <;> first | omega | simp
      · have := congrArg (·.getLsbD (i - 12)) h
        interval_cases i <;> first | omega | simpa [fieldOp] using this

/-- DEC's row is the one word 0x3000. -/
theorem rowDec_selects {w : Word} : rowDec.selects w = true ↔ w = 0x3000#16 := by
  have : (0xFFFF#16 : Word) = BitVec.allOnes 16 := by decide
  simp only [CmdRow.selects, rowDec, beq_iff_eq, this, BitVec.and_allOnes]

/-! ### What the decoder can answer for a word -/

/-- A word decodes to LDB exactly when `op = 0x1`. -/
theorem decodeWord_eq_ldb {w : Word} {idx : Idx} {val : Byte} :
    decodeWord w = .legal (.ldb idx val) ↔ fieldOp w = 0x1#4 ∧ idx = fieldIdx w ∧ val = fieldVal w := by
  unfold decodeWord
  split
  · rename_i h
    rw [rowLdb_selects] at h
    simp [h, eq_comm]
  · rename_i h
    rw [rowLdb_selects] at h
    split
    · simp [h]
    · split <;> simp [h]

/-- A word decodes to CSUM exactly when `op = 0x2` and `val = 0x00`. -/
theorem decodeWord_eq_csum {w : Word} {off : Idx} :
    decodeWord w = .legal (.csum off) ↔ fieldOp w = 0x2#4 ∧ fieldVal w = 0x00#8 ∧ off = fieldIdx w := by
  unfold decodeWord
  split
  · rename_i h
    rw [rowLdb_selects] at h
    simp [h]
  · split
    · rename_i h
      rw [rowCsum_selects] at h
      simp [h, eq_comm]
    · rename_i h
      rw [rowCsum_selects] at h
      split <;> simp <;> intro a b <;> simp_all

/-- A word decodes to DEC exactly when it is 0x3000. -/
theorem decodeWord_eq_dec {w : Word} : decodeWord w = .legal .dec ↔ w = 0x3000#16 := by
  constructor
  · intro h
    unfold decodeWord at h
    split at h
    · simp at h
    · split at h
      · simp at h
      · split at h
        · rename_i hd
          exact rowDec_selects.1 hd
        · simp at h
  · rintro rfl
    decide

/-- A word decodes to a command, never to a frame. -/
theorem decodeWord_legal {w : Word} {i : Instr} (h : decodeWord w = .legal i) :
    (∃ idx val, i = .ldb idx val) ∨ (∃ off, i = .csum off) ∨ i = .dec := by
  unfold decodeWord at h
  split at h
  · simp at h
    exact .inl ⟨_, _, h.symm⟩
  · split at h
    · simp at h
      exact .inr (.inl ⟨_, h.symm⟩)
    · split at h
      · simp at h
        exact .inr (.inr h.symm)
      · simp at h

/-- A word is illegal exactly when it selects no row. -/
theorem decodeWord_illegal {w : Word} : (∃ why, decodeWord w = .illegal why) ↔
    ¬ fieldOp w = 0x1#4 ∧ ¬ (fieldOp w = 0x2#4 ∧ fieldVal w = 0x00#8) ∧ w ≠ 0x3000#16 := by
  rw [← rowLdb_selects, ← rowCsum_selects, Ne, ← rowDec_selects]
  unfold decodeWord
  split
  · simp_all
  · split
    · simp_all
    · split <;> simp_all

/-- A frame is its nine bytes. -/
theorem frame_eq_bytes (f : Frame) : f = #v[f[0], f[1], f[2], f[3], f[4], f[5], f[6], f[7], f[8]] := by
  ext i hi
  interval_cases i <;> rfl

/-- Nine bytes that decode to an instruction are the bytes of that frame. -/
theorem decodeFrame_legal {f : Frame} {i : Instr} (h : decodeFrame f = .legal i) :
    i = .respReadCo2 f[2] f[3] f[4] f[5] f[6] f[7] f[8] ∧
      f = Machine.responseBytes f[2] f[3] f[4] f[5] f[6] f[7] f[8] ∨
    i = .reqReadCo2 ∧ f = Config.requestFrame := by
  unfold decodeFrame at h
  split at h
  · rename_i hh
    simp [Machine.headerOk] at hh
    cases h
    refine .inl ⟨rfl, ?_⟩
    conv_lhs => rw [frame_eq_bytes f]
    rw [Machine.responseBytes, hh.1, hh.2]
  · split at h
    · cases h
      exact .inr ⟨rfl, by assumption⟩
    · cases h

/-! ### Frames as numbers -/

/-- A frame's number, byte by byte. -/
theorem bitsOfFrame_toNat (f : Frame) :
    (bitsOfFrame f).toNat = f[0].toNat * 256 ^ 8 + f[1].toNat * 256 ^ 7 + f[2].toNat * 256 ^ 6 +
      f[3].toNat * 256 ^ 5 + f[4].toNat * 256 ^ 4 + f[5].toNat * 256 ^ 3 + f[6].toNat * 256 ^ 2 +
      f[7].toNat * 256 + f[8].toNat := by
  have hl : f.toList = [f[0], f[1], f[2], f[3], f[4], f[5], f[6], f[7], f[8]] := by
    apply List.ext_getElem
    · simp
    · intro i h1 h2
      have : i < 9 := by simpa using h2
      interval_cases i <;> simp
  have h0 := f[0].isLt
  have h1 := f[1].isLt
  have h2 := f[2].isLt
  have h3 := f[3].isLt
  have h4 := f[4].isLt
  have h5 := f[5].isLt
  have h6 := f[6].isLt
  have h7 := f[7].isLt
  have h8 := f[8].isLt
  rw [bitsOfFrame, hl, BitVec.toNat_ofNat]
  simp only [List.foldl_cons, List.foldl_nil]
  omega

/-- Byte `i` of a 72-bit number's frame. -/
theorem frameOfBits_byte (w : BitVec 72) (i : Fin 9) :
    (frameOfBits w)[i].toNat = w.toNat / 2 ^ (64 - 8 * i.val) % 256 := by
  simp [frameOfBits, Nat.shiftRight_eq_div_pow]

end Sys2Proof
end

