-- ==== Sys2Proof/Laws/Assembler.lean ====
section
/-! SUPPORT. Laws/Assembler.lean: the assembler's words are the encoder's, and its LDF and VALIDATE are the moves that
present a frame. -/

namespace Sys2Proof.Machine

/-- R54's value of an `LDB` line is the encoder's word. -/
theorem ofNat_wordLdb {idx val : Nat} (hi : idx < 16) (hv : val < 256) :
    BitVec.ofNat 16 (wordLdb idx val) = ldbWord (BitVec.ofNat 4 idx) (BitVec.ofNat 8 val) := by
  apply BitVec.eq_of_toNat_eq
  rw [ldbWord, joinFields_toNat]
  simp only [wordLdb, BitVec.toNat_ofNat]
  omega

/-- R54's value of a `CSUM` line is the encoder's word. -/
theorem ofNat_wordCsum {off : Nat} (h : off < 16) :
    BitVec.ofNat 16 (wordCsum off) = csumWord (BitVec.ofNat 4 off) := by
  apply BitVec.eq_of_toNat_eq
  rw [csumWord, joinFields_toNat]
  simp only [wordCsum, BitVec.toNat_ofNat]
  omega

/-- The bytes of a frame as an LDF line's operands. -/
theorem frame_operands (f : Frame) : f.toList.map BitVec.toNat =
    [f[0].toNat, f[1].toNat, f[2].toNat, f[3].toNat, f[4].toNat, f[5].toNat, f[6].toNat, f[7].toNat, f[8].toNat] := by
  conv_lhs => rw [frame_eq_bytes f]
  rfl

/-- They fit their fields. -/
theorem frame_operands_wellFormed (f : Frame) : (AsmLine.ldf (f.toList.map BitVec.toNat)).wellFormed = true := by
  simp only [AsmLine.wellFormed, Bool.and_eq_true, decide_eq_true_eq, List.all_eq_true, List.mem_map]
  refine ⟨by simp, ?_⟩
  rintro _ ⟨b, -, rfl⟩
  exact b.isLt

/-- LDF of a frame's bytes is its nine loads (R57). -/
theorem assemble_ldf (f : Frame) : assemble (.ldf (f.toList.map BitVec.toNat)) = some (loadMoves f) := by
  simp only [assemble, frame_operands_wellFormed f, if_true]
  have h (k : Nat) (hk : k < 16) (b : Byte) :
      issueNumber (wordLdb k b.toNat) = issueWord (ldbWord (BitVec.ofNat 4 k) b) := by
    rw [issueNumber, ofNat_wordLdb hk b.isLt, BitVec.ofNat_toNat, BitVec.setWidth_eq]
  rw [frame_operands]
  simp [expandLdf, loadMoves, List.finRange_succ, h]

/-- VALIDATE of a frame's bytes is the ten moves that present it (R57). -/
theorem assemble_validate (f : Frame) :
    assemble (.validate (f.toList.map BitVec.toNat)) = some (presentCode (.frame f)) := by
  have hw : (AsmLine.validate (f.toList.map BitVec.toNat)).wellFormed = true := frame_operands_wellFormed f
  have h := assemble_ldf f
  simp only [assemble, frame_operands_wellFormed f, if_true, Option.some.injEq] at h
  simp only [assemble, hw, if_true, h]
  rfl

end Sys2Proof.Machine
end

