-- ==== Sys2Proof/Laws/State.lean ====
section
/-! SUPPORT. Laws/State.lean: every field after every register or buffer write, so that no proof unfolds a record
update. -/

namespace Sys2Proof.Machine

/-! ### State.writeByte -/

@[simp] theorem State.writeByte_fb (s : State) (i : Fin 9) (v : Byte) : (s.writeByte i v).fb = s.fb.set i v := rfl
@[simp] theorem State.writeByte_status (s : State) (i : Fin 9) (v : Byte) : (s.writeByte i v).status = s.status := rfl
@[simp] theorem State.writeByte_ppm (s : State) (i : Fin 9) (v : Byte) : (s.writeByte i v).ppm = s.ppm := rfl
@[simp] theorem State.writeByte_csExp (s : State) (i : Fin 9) (v : Byte) : (s.writeByte i v).csExp = s.csExp := rfl
@[simp] theorem State.writeByte_csAct (s : State) (i : Fin 9) (v : Byte) : (s.writeByte i v).csAct = s.csAct := rfl
@[simp] theorem State.writeByte_csr (s : State) (i : Fin 9) (v : Byte) : (s.writeByte i v).csr = s.csr := rfl
@[simp] theorem State.writeByte_inputs (s : State) (i : Fin 9) (v : Byte) : (s.writeByte i v).inputs = s.inputs := rfl

/-! ### State.setStatus -/

@[simp] theorem State.setStatus_fb (s : State) (v : Byte) : (s.setStatus v).fb = s.fb := rfl
@[simp] theorem State.setStatus_status (s : State) (v : Byte) : (s.setStatus v).status = v := rfl
@[simp] theorem State.setStatus_ppm (s : State) (v : Byte) : (s.setStatus v).ppm = s.ppm := rfl
@[simp] theorem State.setStatus_csExp (s : State) (v : Byte) : (s.setStatus v).csExp = s.csExp := rfl
@[simp] theorem State.setStatus_csAct (s : State) (v : Byte) : (s.setStatus v).csAct = s.csAct := rfl
@[simp] theorem State.setStatus_csr (s : State) (v : Byte) : (s.setStatus v).csr = s.csr := rfl
@[simp] theorem State.setStatus_inputs (s : State) (v : Byte) : (s.setStatus v).inputs = s.inputs := rfl

/-! ### State.setRes -/

@[simp] theorem State.setRes_fb (s : State) (r : DecResult) : (s.setRes r).fb = s.fb := rfl
@[simp] theorem State.setRes_status (s : State) (r : DecResult) : (s.setRes r).status = withRes s.status r := rfl
@[simp] theorem State.setRes_ppm (s : State) (r : DecResult) : (s.setRes r).ppm = s.ppm := rfl
@[simp] theorem State.setRes_csExp (s : State) (r : DecResult) : (s.setRes r).csExp = s.csExp := rfl
@[simp] theorem State.setRes_csAct (s : State) (r : DecResult) : (s.setRes r).csAct = s.csAct := rfl
@[simp] theorem State.setRes_csr (s : State) (r : DecResult) : (s.setRes r).csr = s.csr := rfl
@[simp] theorem State.setRes_inputs (s : State) (r : DecResult) : (s.setRes r).inputs = s.inputs := rfl

/-! ### State.setPpmValid -/

@[simp] theorem State.setPpmValid_fb (s : State) : (s.setPpmValid).fb = s.fb := rfl
@[simp] theorem State.setPpmValid_status (s : State) : (s.setPpmValid).status = withPpmValid s.status := rfl
@[simp] theorem State.setPpmValid_ppm (s : State) : (s.setPpmValid).ppm = s.ppm := rfl
@[simp] theorem State.setPpmValid_csExp (s : State) : (s.setPpmValid).csExp = s.csExp := rfl
@[simp] theorem State.setPpmValid_csAct (s : State) : (s.setPpmValid).csAct = s.csAct := rfl
@[simp] theorem State.setPpmValid_csr (s : State) : (s.setPpmValid).csr = s.csr := rfl
@[simp] theorem State.setPpmValid_inputs (s : State) : (s.setPpmValid).inputs = s.inputs := rfl

/-! ### State.setPpm -/

@[simp] theorem State.setPpm_fb (s : State) (v : BitVec 16) : (s.setPpm v).fb = s.fb := rfl
@[simp] theorem State.setPpm_status (s : State) (v : BitVec 16) : (s.setPpm v).status = s.status := rfl
@[simp] theorem State.setPpm_ppm (s : State) (v : BitVec 16) : (s.setPpm v).ppm = v := rfl
@[simp] theorem State.setPpm_csExp (s : State) (v : BitVec 16) : (s.setPpm v).csExp = s.csExp := rfl
@[simp] theorem State.setPpm_csAct (s : State) (v : BitVec 16) : (s.setPpm v).csAct = s.csAct := rfl
@[simp] theorem State.setPpm_csr (s : State) (v : BitVec 16) : (s.setPpm v).csr = s.csr := rfl
@[simp] theorem State.setPpm_inputs (s : State) (v : BitVec 16) : (s.setPpm v).inputs = s.inputs := rfl

/-! ### State.setCsExp -/

@[simp] theorem State.setCsExp_fb (s : State) (v : Byte) : (s.setCsExp v).fb = s.fb := rfl
@[simp] theorem State.setCsExp_status (s : State) (v : Byte) : (s.setCsExp v).status = s.status := rfl
@[simp] theorem State.setCsExp_ppm (s : State) (v : Byte) : (s.setCsExp v).ppm = s.ppm := rfl
@[simp] theorem State.setCsExp_csExp (s : State) (v : Byte) : (s.setCsExp v).csExp = v := rfl
@[simp] theorem State.setCsExp_csAct (s : State) (v : Byte) : (s.setCsExp v).csAct = s.csAct := rfl
@[simp] theorem State.setCsExp_csr (s : State) (v : Byte) : (s.setCsExp v).csr = s.csr := rfl
@[simp] theorem State.setCsExp_inputs (s : State) (v : Byte) : (s.setCsExp v).inputs = s.inputs := rfl

/-! ### State.setCsAct -/

@[simp] theorem State.setCsAct_fb (s : State) (v : Byte) : (s.setCsAct v).fb = s.fb := rfl
@[simp] theorem State.setCsAct_status (s : State) (v : Byte) : (s.setCsAct v).status = s.status := rfl
@[simp] theorem State.setCsAct_ppm (s : State) (v : Byte) : (s.setCsAct v).ppm = s.ppm := rfl
@[simp] theorem State.setCsAct_csExp (s : State) (v : Byte) : (s.setCsAct v).csExp = s.csExp := rfl
@[simp] theorem State.setCsAct_csAct (s : State) (v : Byte) : (s.setCsAct v).csAct = v := rfl
@[simp] theorem State.setCsAct_csr (s : State) (v : Byte) : (s.setCsAct v).csr = s.csr := rfl
@[simp] theorem State.setCsAct_inputs (s : State) (v : Byte) : (s.setCsAct v).inputs = s.inputs := rfl

/-! ### State.setCsr -/

@[simp] theorem State.setCsr_fb (s : State) (v : Byte) : (s.setCsr v).fb = s.fb := rfl
@[simp] theorem State.setCsr_status (s : State) (v : Byte) : (s.setCsr v).status = s.status := rfl
@[simp] theorem State.setCsr_ppm (s : State) (v : Byte) : (s.setCsr v).ppm = s.ppm := rfl
@[simp] theorem State.setCsr_csExp (s : State) (v : Byte) : (s.setCsr v).csExp = s.csExp := rfl
@[simp] theorem State.setCsr_csAct (s : State) (v : Byte) : (s.setCsr v).csAct = s.csAct := rfl
@[simp] theorem State.setCsr_csr (s : State) (v : Byte) : (s.setCsr v).csr = v := rfl
@[simp] theorem State.setCsr_inputs (s : State) (v : Byte) : (s.setCsr v).inputs = s.inputs := rfl

/-! ### State.setInputs -/

@[simp] theorem State.setInputs_fb (s : State) (l : List HostInput) : (s.setInputs l).fb = s.fb := rfl
@[simp] theorem State.setInputs_status (s : State) (l : List HostInput) : (s.setInputs l).status = s.status := rfl
@[simp] theorem State.setInputs_ppm (s : State) (l : List HostInput) : (s.setInputs l).ppm = s.ppm := rfl
@[simp] theorem State.setInputs_csExp (s : State) (l : List HostInput) : (s.setInputs l).csExp = s.csExp := rfl
@[simp] theorem State.setInputs_csAct (s : State) (l : List HostInput) : (s.setInputs l).csAct = s.csAct := rfl
@[simp] theorem State.setInputs_csr (s : State) (l : List HostInput) : (s.setInputs l).csr = s.csr := rfl
@[simp] theorem State.setInputs_inputs (s : State) (l : List HostInput) : (s.setInputs l).inputs = l := rfl

/-! ### Overwriting and keeping -/

/-- A write of the moves already pending changes nothing. -/
@[simp] theorem State.setInputs_self (s : State) : s.setInputs s.inputs = s := rfl

/-- The later write of the pending moves counts. -/
@[simp] theorem State.setInputs_setInputs (s : State) (l m : List HostInput) :
    (s.setInputs l).setInputs m = s.setInputs m := rfl

/-- Two states with equal fields are equal. -/
theorem State.ext_fields {s t : State} (h1 : s.fb = t.fb) (h2 : s.status = t.status) (h3 : s.ppm = t.ppm)
    (h4 : s.csExp = t.csExp) (h5 : s.csAct = t.csAct) (h6 : s.csr = t.csr) (h7 : s.inputs = t.inputs) : s = t := by
  cases s
  cases t
  simp_all

end Sys2Proof.Machine
end

