-- ==== Sys2Proof/Laws/Status.lean ====
section
/-! SUPPORT. Laws/Status.lean: every field of STATUS after every write of one of its fields (R15). -/

namespace Sys2Proof.Machine

/-! ### RES written -/

@[simp] theorem statusRes_withRes (st : Byte) (r : DecResult) : statusRes (withRes st r) = resCode r := by
  revert st; cases r <;> decide

@[simp] theorem statusPpmValid_withRes (st : Byte) (r : DecResult) :
    statusPpmValid (withRes st r) = statusPpmValid st := by
  revert st; cases r <;> decide

@[simp] theorem statusErrF_withRes (st : Byte) (r : DecResult) : statusErrF (withRes st r) = statusErrF st := by
  revert st; cases r <;> decide

@[simp] theorem statusErrCode_withRes (st : Byte) (r : DecResult) :
    statusErrCode (withRes st r) = statusErrCode st := by
  revert st; cases r <;> decide

@[simp] theorem statusZero_withRes (st : Byte) (r : DecResult) : statusZero (withRes st r) = statusZero st := by
  revert st; cases r <;> decide

/-! ### PPM_VALID set -/

@[simp] theorem statusRes_withPpmValid (st : Byte) : statusRes (withPpmValid st) = statusRes st := by
  revert st; decide

@[simp] theorem statusPpmValid_withPpmValid (st : Byte) : statusPpmValid (withPpmValid st) = true := by
  simp [statusPpmValid, withPpmValid]

@[simp] theorem statusErrF_withPpmValid (st : Byte) : statusErrF (withPpmValid st) = statusErrF st := by
  simp [statusErrF, withPpmValid]

@[simp] theorem statusErrCode_withPpmValid (st : Byte) : statusErrCode (withPpmValid st) = statusErrCode st := by
  revert st; decide

@[simp] theorem statusZero_withPpmValid (st : Byte) : statusZero (withPpmValid st) = statusZero st := by
  revert st; decide

/-! ### ERR_F and ERR_CODE written -/

@[simp] theorem statusRes_withFault (st : Byte) (f : CmdFault) : statusRes (withFault st f) = statusRes st := by
  revert st; cases f <;> decide

@[simp] theorem statusPpmValid_withFault (st : Byte) (f : CmdFault) :
    statusPpmValid (withFault st f) = statusPpmValid st := by
  revert st; cases f <;> decide

@[simp] theorem statusErrF_withFault (st : Byte) (f : CmdFault) : statusErrF (withFault st f) = true := by
  revert st; cases f <;> decide

@[simp] theorem statusErrCode_withFault (st : Byte) (f : CmdFault) :
    statusErrCode (withFault st f) = faultCode f := by
  revert st; cases f <;> decide

@[simp] theorem statusZero_withFault (st : Byte) (f : CmdFault) : statusZero (withFault st f) = statusZero st := by
  revert st; cases f <;> decide

/-! ### The register is its fields -/

/-- `STATUS` is its five fields side by side (R15). -/
theorem status_eq_fields (st : Byte) :
    st = statusZero st ++ statusErrCode st ++ BitVec.ofBool (statusErrF st) ++
      BitVec.ofBool (statusPpmValid st) ++ statusRes st := by
  revert st; decide

/-- Two values of `STATUS` with equal fields are equal. -/
theorem status_ext {a b : Byte} (h0 : statusZero a = statusZero b) (h1 : statusErrCode a = statusErrCode b)
    (h2 : statusErrF a = statusErrF b) (h3 : statusPpmValid a = statusPpmValid b)
    (h4 : statusRes a = statusRes b) : a = b := by
  rw [status_eq_fields a, status_eq_fields b, h0, h1, h2, h3, h4]

/-- No fault's number is `NO_FAULT` (R19). -/
theorem faultCode_ne_zero (f : CmdFault) : faultCode f ≠ 0#2 := by cases f <;> decide

end Sys2Proof.Machine
end

