-- ==== Sys2Proof/Laws/Ops.lean ====
section
/-! SUPPORT. Laws/Ops.lean: for each shared operation, everything it can do, said once. -/

namespace Sys2Proof.Machine

/-! ### Raising a command fault (R96) -/

/-- With `ERR_F = 1` a command fault changes nothing. -/
theorem raiseCmdFault_of_fault {s : State} (f : CmdFault) (h : statusErrF s.status = true) :
    raiseCmdFault f s = s := by simp [raiseCmdFault, h]

/-- With `ERR_F = 0` a command fault writes `ERR_F` and `ERR_CODE`. -/
theorem raiseCmdFault_of_clean {s : State} (f : CmdFault) (h : statusErrF s.status = false) :
    raiseCmdFault f s = s.setStatus (withFault s.status f) := by simp [raiseCmdFault, h]

/-- Outside STATUS a command fault changes nothing. -/
theorem raiseCmdFault_frame (f : CmdFault) (s : State) :
    (raiseCmdFault f s).fb = s.fb ∧ (raiseCmdFault f s).ppm = s.ppm ∧ (raiseCmdFault f s).csExp = s.csExp ∧
    (raiseCmdFault f s).csAct = s.csAct ∧ (raiseCmdFault f s).csr = s.csr ∧
    (raiseCmdFault f s).inputs = s.inputs := by
  unfold raiseCmdFault
  split <;> simp

/-- The fields of STATUS after a command fault. -/
theorem raiseCmdFault_status (f : CmdFault) (s : State) :
    statusZero (raiseCmdFault f s).status = statusZero s.status ∧
    statusRes (raiseCmdFault f s).status = statusRes s.status ∧
    statusPpmValid (raiseCmdFault f s).status = statusPpmValid s.status ∧
    statusErrF (raiseCmdFault f s).status = true ∧
    statusErrCode (raiseCmdFault f s).status =
      (if statusErrF s.status then statusErrCode s.status else faultCode f) := by
  unfold raiseCmdFault
  split <;> simp_all

/-! ### Operands -/

/-- An index names a buffer byte exactly when it is at most 8. -/
theorem bufferIndex_eq_some {idx : Idx} {i : Fin 9} : bufferIndex idx = some i ↔ idx.toNat = i.val := by
  unfold bufferIndex Config.frameLen
  split
  · simp [Fin.ext_iff]
  · simp only [reduceCtorEq, false_iff]
    have := i.isLt
    omega

/-- An index names no buffer byte exactly when it is 9 to 15. -/
theorem bufferIndex_eq_none {idx : Idx} : bufferIndex idx = none ↔ 9 ≤ idx.toNat := by
  unfold bufferIndex Config.frameLen
  split <;> simp <;> omega

/-- An offset names a span exactly when it is at most 2. -/
theorem spanOffset_eq_some {off : Idx} {o : Fin 3} : spanOffset off = some o ↔ off.toNat = o.val := by
  unfold spanOffset Config.maxOffset
  split
  · simp [Fin.ext_iff]
  · simp only [reduceCtorEq, false_iff]
    have := o.isLt
    omega

/-- An offset names no span exactly when it is 3 to 15. -/
theorem spanOffset_eq_none {off : Idx} : spanOffset off = none ↔ 3 ≤ off.toNat := by
  unfold spanOffset Config.maxOffset
  split <;> simp <;> omega

/-! ### The buffer -/

/-- A buffer byte reads as last written, and the others as before (R34). -/
theorem writeByte_read (s : State) (i j : Fin 9) (v : Byte) :
    (s.writeByte i v).fb[j] = if i = j then v else s.fb[j] := by
  simp [Vector.getElem_set, Fin.ext_iff]

/-- Loading bytes of a frame, in any order, writes the buffer only. -/
theorem foldl_writeByte (f : Frame) (l : List (Fin 9)) (s : State) :
    l.foldl (fun (t : State) i => t.writeByte i f[i]) s =
      { s with fb := (l.foldl (fun (t : State) i => t.writeByte i f[i]) s).fb } := by
  induction l generalizing s with
  | nil => rfl
  | cons i l ih => exact ih (s.writeByte i f[i])

/-- The bytes loaded are the frame's and the others as before. -/
theorem foldl_writeByte_read (f : Frame) (l : List (Fin 9)) (s : State) (j : Fin 9) :
    (l.foldl (fun (t : State) i => t.writeByte i f[i]) s).fb[j] = if j ∈ l then f[j] else s.fb[j] := by
  induction l generalizing s with
  | nil => simp
  | cons i l ih =>
    rw [List.foldl_cons, ih, writeByte_read]
    by_cases h : j ∈ l
    · simp [h]
    · by_cases e : i = j
      · simp [e]
      · simp [h, e, Ne.symm e]

/-- With all nine loaded the buffer is the frame (R57). -/
theorem foldl_writeByte_all (f : Frame) (s : State) :
    (List.finRange 9).foldl (fun (t : State) i => t.writeByte i f[i]) s = { s with fb := f } := by
  rw [foldl_writeByte]
  congr 1
  refine Vector.ext fun k hk => ?_
  simpa using foldl_writeByte_read f (List.finRange 9) s ⟨k, hk⟩

/-! ### DEC (R78) -/

/-- What `DEC` never changes and what it always writes. -/
theorem decodeBuffer_frame (s : State) :
    (decodeBuffer s).fb = s.fb ∧ (decodeBuffer s).csr = s.csr ∧ (decodeBuffer s).inputs = s.inputs ∧
    (decodeBuffer s).csExp = checksum s.fb 1 ∧ (decodeBuffer s).csAct = s.fb[8] ∧
    statusErrF (decodeBuffer s).status = statusErrF s.status ∧
    statusErrCode (decodeBuffer s).status = statusErrCode s.status ∧
    statusZero (decodeBuffer s).status = statusZero s.status := by
  unfold decodeBuffer
  dsimp only
  split
  · simp
  · split <;> simp

/-- With a wrong header the result is `FRAMING_ERROR`. -/
theorem decodeBuffer_of_badHeader {s : State} (h : headerOk s.fb = false) :
    statusRes (decodeBuffer s).status = resCode .framingError ∧ (decodeBuffer s).ppm = s.ppm ∧
    statusPpmValid (decodeBuffer s).status = statusPpmValid s.status := by
  have : s.fb[0] ≠ Config.marker ∨ s.fb[1] ≠ Config.cmdRead := by
    by_contra hn
    simp_all [headerOk]
  simp [decodeBuffer, this]

/-- With a correct header and a wrong checksum the result is `CHECKSUM_MISMATCH`. -/
theorem decodeBuffer_of_mismatch {s : State} (h : headerOk s.fb = true) (hc : checksumOk s.fb = false) :
    statusRes (decodeBuffer s).status = resCode .checksumMismatch ∧ (decodeBuffer s).ppm = s.ppm ∧
    statusPpmValid (decodeBuffer s).status = statusPpmValid s.status := by
  simp_all [decodeBuffer, headerOk, checksumOk]

/-- With both correct the result is `OK`. -/
theorem decodeBuffer_of_ok {s : State} (h : headerOk s.fb = true) (hc : checksumOk s.fb = true) :
    statusRes (decodeBuffer s).status = resCode .ok ∧ (decodeBuffer s).ppm = concentration s.fb ∧
    statusPpmValid (decodeBuffer s).status = true := by
  simp_all [decodeBuffer, headerOk, checksumOk]

/-- The three cases of a decode, each with its result. -/
theorem decodeBuffer_cases (s : State) :
    (headerOk s.fb = false ∧ statusRes (decodeBuffer s).status = resCode .framingError ∧
      (decodeBuffer s).ppm = s.ppm ∧
      statusPpmValid (decodeBuffer s).status = statusPpmValid s.status) ∨
    (headerOk s.fb = true ∧ checksumOk s.fb = false ∧
      statusRes (decodeBuffer s).status = resCode .checksumMismatch ∧ (decodeBuffer s).ppm = s.ppm ∧
      statusPpmValid (decodeBuffer s).status = statusPpmValid s.status) ∨
    (headerOk s.fb = true ∧ checksumOk s.fb = true ∧ statusRes (decodeBuffer s).status = resCode .ok ∧
      (decodeBuffer s).ppm = concentration s.fb ∧ statusPpmValid (decodeBuffer s).status = true) := by
  cases h : headerOk s.fb
  · exact .inl ⟨rfl, decodeBuffer_of_badHeader h⟩
  · cases hc : checksumOk s.fb
    · exact .inr (.inl ⟨rfl, rfl, decodeBuffer_of_mismatch h hc⟩)
    · exact .inr (.inr ⟨rfl, rfl, decodeBuffer_of_ok h hc⟩)

/-! ### Reset and the host's moves -/

/-- Reset sets the block's state to the reset state and leaves the host's moves (R110, R112). -/
theorem resetStep_eq (s : State) : resetStep s = { State.reset with inputs := s.inputs } := rfl

/-- With no move left the state stays as it is. -/
theorem step_nil {s : State} (h : s.inputs = []) : step s = .next s := by simp [step, h]

/-- A step consumes the next move. -/
theorem step_cons {s : State} {m : HostInput} {rest : List HostInput} (h : s.inputs = m :: rest) :
    step s = acceptInput m (s.setInputs rest) := by simp [step, h]

end Sys2Proof.Machine
end

