-- ==== Sys2Proof/Laws/PerInstr.lean ====
section
/-! SUPPORT. Laws/PerInstr.lean: statements for every instruction, one lemma per constructor.
RowSelection: an instruction's encoding is selected by its own row of the table and, for a command, by no other
(R47, R49, R50). -/

namespace Sys2Proof.Laws

/-- The encoding of the instruction is selected by its row of the table. -/
def RowSelection.Statement : Instr → Prop
  | .ldb idx val => ∃ w, encode (.ldb idx val) = .word w ∧ rowLdb.selects w = true ∧
      ¬ rowCsum.selects w = true ∧ ¬ rowDec.selects w = true
  | .csum off => ∃ w, encode (.csum off) = .word w ∧ ¬ rowLdb.selects w = true ∧
      rowCsum.selects w = true ∧ ¬ rowDec.selects w = true
  | .dec => ∃ w, encode .dec = .word w ∧ ¬ rowLdb.selects w = true ∧ ¬ rowCsum.selects w = true ∧
      rowDec.selects w = true
  | .respReadCo2 ppmHi ppmLo r4 r5 r6 r7 cs => ∃ f, encode (.respReadCo2 ppmHi ppmLo r4 r5 r6 r7 cs) = .frame f ∧
      (bitsOfFrame f).toNat / 256 ^ 7 = 0xFF86
  | .reqReadCo2 => ∃ f, encode .reqReadCo2 = .frame f ∧ bitsOfFrame f = 0xFF0186000000000079#72

/-- A word of DEC's row has `op = 0x3`. -/
theorem not_rowDec_of_op {w : Word} (h : fieldOp w ≠ 0x3#4) : ¬ rowDec.selects w = true := by
  rw [rowDec_selects]
  rintro rfl
  exact h (by decide)

/-- LDB's words are LDB's row's alone. -/
theorem RowSelection.ldb (idx : Idx) (val : Byte) : RowSelection.Statement (.ldb idx val) :=
  ⟨_, rfl, by simp [rowLdb_selects], by simp [rowCsum_selects], not_rowDec_of_op (by simp)⟩

/-- CSUM's words are CSUM's row's alone. -/
theorem RowSelection.csum (off : Idx) : RowSelection.Statement (.csum off) :=
  ⟨_, rfl, by simp [rowLdb_selects], by simp [rowCsum_selects], not_rowDec_of_op (by simp)⟩

/-- DEC's word is DEC's row's alone. -/
theorem RowSelection.dec : RowSelection.Statement .dec := ⟨_, rfl, by decide, by decide, by decide⟩

/-- A response frame's number begins 0xFF86. -/
theorem RowSelection.respReadCo2 (ppmHi ppmLo r4 r5 r6 r7 cs : Byte) :
    RowSelection.Statement (.respReadCo2 ppmHi ppmLo r4 r5 r6 r7 cs) := by
  refine ⟨_, rfl, ?_⟩
  have := ppmHi.isLt
  have := ppmLo.isLt
  have := r4.isLt
  have := r5.isLt
  have := r6.isLt
  have := r7.isLt
  have := cs.isLt
  rw [bitsOfFrame_toNat]
  simp [Machine.responseBytes]
  omega

/-- The request frame's number is the row's match, every bit fixed. -/
theorem RowSelection.reqReadCo2 : RowSelection.Statement .reqReadCo2 := ⟨_, rfl, by decide⟩

end Sys2Proof.Laws
end

