-- ==== Sys2Proof/Laws/Step.lean ====
section
/-! SUPPORT. Laws/Step.lean: the inversion lemmas: everything one command word and one host move can do, and what the
commands of a frame do. An invariant is proved by citing `acceptInput_cases`, not by unfolding the step. -/

namespace Sys2Proof.Machine

/-! ### The two commands with a range -/

/-- LDB with an index that names a byte writes it. -/
theorem execLdb_of_index {idx : Idx} {i : Fin 9} (h : idx.toNat = i.val) (val : Byte) (s : State) :
    execLdb idx val s = .next (s.writeByte i val) := by simp [execLdb, bufferIndex_eq_some.2 h]

/-- LDB with an index that names no byte raises `INDEX_RANGE`. -/
theorem execLdb_of_range {idx : Idx} (h : 9 ≤ idx.toNat) (val : Byte) (s : State) :
    execLdb idx val s = .next (raiseCmdFault .indexRange s) := by simp [execLdb, bufferIndex_eq_none.2 h]

/-- CSUM with an offset that names a span writes `CSR`. -/
theorem execCsum_of_offset {off : Idx} {o : Fin 3} (h : off.toNat = o.val) (s : State) :
    execCsum off s = .next (s.setCsr (checksum s.fb o)) := by simp [execCsum, spanOffset_eq_some.2 h]

/-- CSUM with an offset that names no span raises `OFFSET_RANGE`. -/
theorem execCsum_of_range {off : Idx} (h : 3 ≤ off.toNat) (s : State) :
    execCsum off s = .next (raiseCmdFault .offsetRange s) := by simp [execCsum, spanOffset_eq_none.2 h]

/-! ### One command word -/

/-- Everything a command word can do. -/
theorem runWord_cases (w : Word) (s : State) :
    (∃ (idx : Idx) (val : Byte) (i : Fin 9), decodeWord w = .legal (.ldb idx val) ∧ idx.toNat = i.val ∧
      runWord w s = .next (s.writeByte i val)) ∨
    (∃ (idx : Idx) (val : Byte), decodeWord w = .legal (.ldb idx val) ∧ 8 < idx.toNat ∧
      runWord w s = .next (raiseCmdFault .indexRange s)) ∨
    (∃ (off : Idx) (o : Fin 3), decodeWord w = .legal (.csum off) ∧ off.toNat = o.val ∧
      runWord w s = .next (s.setCsr (checksum s.fb o))) ∨
    (∃ off : Idx, decodeWord w = .legal (.csum off) ∧ 2 < off.toNat ∧
      runWord w s = .next (raiseCmdFault .offsetRange s)) ∨
    (decodeWord w = .legal .dec ∧ runWord w s = .next (decodeBuffer s)) ∨
    (∃ why, decodeWord w = .illegal why ∧ runWord w s = .next (raiseCmdFault .illegalCmd s)) := by
  cases hd : decodeWord w with
  | illegal why => simp [runWord, hd]
  | legal i =>
    have hr : runWord w s = exec i s := by simp [runWord, hd]
    rw [hr]
    obtain ⟨idx, val, rfl⟩ | ⟨off, rfl⟩ | rfl := decodeWord_legal hd
    · by_cases h : idx.toNat < 9
      · exact .inl ⟨idx, val, ⟨_, h⟩, rfl, rfl, execLdb_of_index (i := ⟨_, h⟩) rfl val s⟩
      · exact .inr (.inl ⟨idx, val, rfl, by omega, execLdb_of_range (by omega) val s⟩)
    · by_cases h : off.toNat < 3
      · exact .inr (.inr (.inl ⟨off, ⟨_, h⟩, rfl, rfl, execCsum_of_offset (o := ⟨_, h⟩) rfl s⟩))
      · exact .inr (.inr (.inr (.inl ⟨off, rfl, by omega, execCsum_of_range (by omega) s⟩)))
    · exact .inr (.inr (.inr (.inr (.inl ⟨rfl, rfl⟩))))

/-! ### One host move -/

/-- An edge is a reset, a command step, or nothing (R45). -/
theorem acceptInput_edge (rst valid : Bool) (cmd : Word) (s : State) :
    acceptInput (.edge rst valid cmd) s =
      if rst then .next (resetStep s) else if valid then runWord cmd s else .next s := by
  cases rst <;> cases valid <;> rfl

/-- Everything a host move can do. -/
theorem acceptInput_cases (m : HostInput) (s : State) :
    (m.isReset = true ∧ acceptInput m s = .next (resetStep s)) ∨
    (m.isReset = false ∧ acceptInput m s = .next s ∧ ∀ p, m.runs p = false) ∨
    (m.isReset = false ∧ ∃ f, acceptInput m s = .next (raiseCmdFault f s)) ∨
    (∃ (w : Word) (i : Fin 9) (idx : Idx) (val : Byte), m = .edge false true w ∧
      decodeWord w = .legal (.ldb idx val) ∧ idx.toNat = i.val ∧ acceptInput m s = .next (s.writeByte i val)) ∨
    (∃ (w : Word) (o : Fin 3) (off : Idx), m = .edge false true w ∧ decodeWord w = .legal (.csum off) ∧
      off.toNat = o.val ∧ acceptInput m s = .next (s.setCsr (checksum s.fb o))) ∨
    (m = .edge false true 0x3000#16 ∧ acceptInput m s = .next (decodeBuffer s)) := by
  obtain ⟨rst, valid, cmd⟩ := m
  cases rst
  · cases valid
    · exact .inr (.inl ⟨rfl, rfl, fun _ => rfl⟩)
    · obtain ⟨idx, val, i, hd, hi, hr⟩ | ⟨_, _, _, _, hr⟩ | ⟨off, o, hd, ho, hr⟩ | ⟨_, _, _, hr⟩ | ⟨hd, hr⟩ |
        ⟨_, _, hr⟩ := runWord_cases cmd s
      · exact .inr (.inr (.inr (.inl ⟨cmd, i, idx, val, rfl, hd, hi, hr⟩)))
      · exact .inr (.inr (.inl ⟨rfl, _, hr⟩))
      · exact .inr (.inr (.inr (.inr (.inl ⟨cmd, o, off, rfl, hd, ho, hr⟩))))
      · exact .inr (.inr (.inl ⟨rfl, _, hr⟩))
      · rw [decodeWord_eq_dec] at hd
        subst hd
        exact .inr (.inr (.inr (.inr (.inr ⟨rfl, hr⟩))))
      · exact .inr (.inr (.inl ⟨rfl, _, hr⟩))
  · exact .inl ⟨rfl, rfl⟩

/-! ### The commands of a frame -/

/-- A step on a command word runs it. -/
theorem step_issueWord {s : State} {w : Word} {rest : List HostInput} (h : s.inputs = issueWord w :: rest) :
    step s = runWord w (s.setInputs rest) := step_cons h

/-- A byte's `LDB` word writes that byte. -/
theorem runWord_ldbWord (i : Fin 9) (v : Byte) (s : State) :
    runWord (ldbWord (BitVec.ofNat 4 i.val) v) s = .next (s.writeByte i v) := by
  rw [runWord, (decodeWord_eq_ldb (idx := BitVec.ofNat 4 i.val) (val := v)).2 (by simp [ldbWord])]
  exact execLdb_of_index (by have := i.isLt; rw [BitVec.toNat_ofNat]; omega) v s

/-- `DEC`'s word decodes the buffer. -/
theorem runWord_decWord (s : State) : runWord decWord s = .next (decodeBuffer s) := rfl

/-- Nine bytes are presented by ten commands (R57). -/
theorem presentCode_frame (f : Frame) :
    presentCode (.frame f) = issueWord (ldbWord 0#4 f[0]) :: (presentCode (.frame f)).tail := by
  simp [presentCode, validateMoves, loadMoves, List.finRange_succ]

/-- Starting a frame writes byte 0 and leaves the nine other commands as the host's next moves. -/
theorem startValidate_eq (f : Frame) (s : State) :
    startValidate f s =
      .next ((s.setInputs ((presentCode (.frame f)).tail ++ s.inputs)).writeByte 0 f[0]) :=
  execLdb_of_index (idx := 0#4) (i := 0) (by decide) f[0] _

/-- Whichever row nine bytes select, their instruction starts their `VALIDATE`. -/
theorem exec_of_decodeFrame {f : Frame} {i : Instr} (h : decodeFrame f = .legal i) (s : State) :
    exec i s = startValidate f s := by
  obtain ⟨rfl, hf⟩ | ⟨rfl, hf⟩ := decodeFrame_legal h
  · conv_rhs => rw [hf]
    rfl
  · rw [hf]
    rfl

/-- A run takes its first step and goes on. -/
theorem run_succ {s t : State} (h : step s = .next t) (k : Nat) :
    Host.Core.run Sys2Proof.core (k + 1) s = Host.Core.run Sys2Proof.core k t := by
  have hc : Sys2Proof.core.step s = .next t := h
  simp only [Host.Core.run, hc]

/-- Any number of a frame's loads, one step each: those bytes are written, and nothing else but the pending moves
changes. -/
theorem run_loads (f : Frame) (l : List (Fin 9)) (s : State) (rest : List HostInput)
    (h : s.inputs = l.map (fun i => issueWord (ldbWord (BitVec.ofNat 4 i.val) f[i])) ++ rest) :
    Host.Core.run Sys2Proof.core l.length s =
      .next (l.foldl (fun (t : State) i => t.writeByte i f[i]) (s.setInputs rest) : State) := by
  induction l generalizing s with
  | nil =>
    simp only [List.map_nil, List.nil_append] at h
    rw [← h]
    rfl
  | cons i l ih =>
    have hs : step s = .next ((s.setInputs (l.map (fun i => issueWord (ldbWord (BitVec.ofNat 4 i.val) f[i])) ++
        rest)).writeByte i f[i]) := by
      rw [step_issueWord h]
      exact runWord_ldbWord i f[i] _
    rw [List.length_cons, run_succ hs, ih _ rfl]
    rfl

/-- The last command of a frame decodes the buffer. -/
theorem run_decWord {s : State} {rest : List HostInput} (h : s.inputs = issueWord decWord :: rest) :
    Host.Core.run Sys2Proof.core 1 s = .next (decodeBuffer (s.setInputs rest)) := by
  rw [run_succ ((step_issueWord h).trans (runWord_decWord _))]
  rfl

end Sys2Proof.Machine
end

