-- ==== Sys2Proof/Tests/Slice0.lean ====
section
/-! SUPPORT. Tests/Slice0.lean: the WellFormed smoke tests, decoding tests on words written out from 30_encoding.md,
vectors of 95_test_vectors.md (one step each), and a witness for every statement that has hypotheses. -/

namespace Sys2Proof.Tests

open Sys2Proof Sys2Proof.Machine

/-! ### Helpers -/

/-- The next state of a result. -/
def after (r : Result) (s : State) : State :=
  match r with
  | .next t => t
  | .fault _ => s
  | .refused _ => s

/-- The reset state with a buffer. -/
def withBuffer (f : Frame) : State := { State.reset with fb := f }

/-- The reset state with host moves to come. -/
def withMoves (l : List HostInput) : State := { State.reset with inputs := l }

/-- The state after a fault: `STATUS = 0x18` (V80). -/
def faulted : State := { State.reset with status := 0x18#8 }

/-- The frame of V3, 726 ppm. -/
def goodFrame : Frame := #v[0xFF#8, 0x86#8, 0x02#8, 0xD6#8, 0x00#8, 0x00#8, 0x00#8, 0x00#8, 0xA2#8]

/-- The frame of V60: V3 with byte 8 changed. -/
def badChecksumFrame : Frame := #v[0xFF#8, 0x86#8, 0x02#8, 0xD6#8, 0x00#8, 0x00#8, 0x00#8, 0x00#8, 0xA3#8]

/-! ### WellFormed smoke: an ill-formed term for each check -/

theorem test_wf_response_bad_checksum :
    (Instr.respReadCo2 0x02#8 0xD6#8 0#8 0#8 0#8 0#8 0xA3#8).wellFormed = false := by decide
theorem test_wf_response_good_checksum :
    (Instr.respReadCo2 0x02#8 0xD6#8 0#8 0#8 0#8 0#8 0xA2#8).wellFormed = true := by decide
theorem test_wf_asm_idx : (AsmLine.ldb 16 0).wellFormed = false := by decide
theorem test_wf_asm_val : (AsmLine.ldb 0 256).wellFormed = false := by decide
theorem test_wf_asm_off : (AsmLine.csum 16).wellFormed = false := by decide
theorem test_wf_asm_word : (AsmLine.word 65536).wellFormed = false := by decide
theorem test_wf_asm_ldf_length : (AsmLine.ldf [1, 2, 3]).wellFormed = false := by decide
theorem test_wf_asm_ldf_byte : (AsmLine.ldf [1, 2, 3, 4, 5, 6, 7, 8, 256]).wellFormed = false := by decide
theorem test_wf_asm_validate_length : (AsmLine.validate []).wellFormed = false := by decide
theorem test_wf_asm_validate_byte : (AsmLine.validate [256, 2, 3, 4, 5, 6, 7, 8, 9]).wellFormed = false := by decide

/-! ### The constants agree with each other (R4, R5) -/

theorem test_max_offset : Config.maxOffset = Config.frameLen - Config.spanLen := by decide
theorem test_widths : (Config.cmdWidth, Config.idxWidth, Config.statusWidth, Config.ppmWidth) = (16, 4, 8, 16) := by
  decide
theorem test_one_mode_one_host : (Config.modes, Config.hosts) = (1, 1) := by decide

/-! ### Decoding: words written out bit by bit from R47, R49 and R50 -/

/-- `0001iiiivvvvvvvv` with i = 0011, v = 11010110 (R60's example, 0x13D6). -/
theorem test_decode_ldb : decodeWord 0b0001001111010110#16 = .legal (.ldb 0b0011#4 0b11010110#8) := by decide
/-- `0010oooo00000000` with o = 0010 (V73, 0x2200). -/
theorem test_decode_csum : decodeWord 0b0010001000000000#16 = .legal (.csum 0b0010#4) := by decide
/-- `0011000000000000` (V77). -/
theorem test_decode_dec : decodeWord 0b0011000000000000#16 = .legal .dec := by decide
/-- `11111111 10000110 h l r r r r c` of V44. -/
theorem test_decode_response :
    decodeTableWord 72 0xFF86019012345678D5 =
      some (.respReadCo2 0x01#8 0x90#8 0x12#8 0x34#8 0x56#8 0x78#8 0xD5#8) := by decide
/-- `FF 01 86 00 00 00 00 00 79` (R50). -/
theorem test_decode_request : decodeTableWord 72 0xFF0186000000000079 = some .reqReadCo2 := by decide
/-- The command words do not decode as frames, nor at another width. -/
theorem test_decode_other_width : decodeTableWord 24 0x3000 = none := by decide
theorem test_encode_ldb : encode (.ldb 8#4 0xA2#8) = .word 0x18A2#16 := by decide
theorem test_encode_csum : encode (.csum 15#4) = .word 0x2F00#16 := by decide

/-! ### The checksum (95_test_vectors.md section 2.1) -/

theorem test_checksum_zero_sum : neg8 (sum8 [0x86#8, 0x7A#8, 0#8, 0#8, 0#8, 0#8, 0#8]) = 0x00#8 := by decide
theorem test_checksum_largest_sum : neg8 (sum8 (List.replicate 7 0xFF#8)) = 0x07#8 := by decide

/-! ### LDB (section 2.3) -/

/-- V31: the highest index. -/
theorem test_ldb_last_byte :
    (after (exec (.ldb 8#4 0xA2#8) State.reset) State.reset).fb = #v[0#8, 0#8, 0#8, 0#8, 0#8, 0#8, 0#8, 0#8, 0xA2#8] := by
  decide
/-- V83: the first cause is kept. -/
theorem test_ldb_fault_keeps_first_cause : (after (exec (.ldb 9#4 0x55#8) faulted) State.reset).status = 0x18#8 := by
  decide

/-! ### CSUM (section 2.2) -/

/-- V27. -/
theorem test_csum_2 : (after (exec (.csum 2#4) (withBuffer goodFrame)) State.reset).csr = 0x86#8 := by decide
/-- V24. -/
theorem test_csum_15 : (after (exec (.csum 15#4) State.reset) State.reset).status = 0x38#8 := by decide

/-! ### DEC (section 2.4) -/

/-- V53: header and checksum both wrong. -/
theorem test_dec_framing_first :
    (after (exec .dec (withBuffer #v[0xFE#8, 0x86#8, 0x02#8, 0xD6#8, 0#8, 0#8, 0#8, 0#8, 0x00#8])) State.reset).status =
      0x02#8 := by decide
/-- V84: decoding after a fault. -/
theorem test_dec_after_fault :
    (after (exec .dec { withBuffer #v[0xFF#8, 0x86#8, 0x01#8, 0xF4#8, 0#8, 0#8, 0#8, 0#8, 0x85#8] with status := 0x28#8 })
      State.reset).status = 0x2D#8 := by decide

/-! ### The frames: the first step, and the nine moves left, words by R54's formulas -/

/-- V44's frame, on the zero buffer: byte 0 only. -/
theorem test_response_first_step :
    (after (exec (.respReadCo2 0x01#8 0x90#8 0x12#8 0x34#8 0x56#8 0x78#8 0xD5#8) State.reset) State.reset).fb =
      #v[0xFF#8, 0#8, 0#8, 0#8, 0#8, 0#8, 0#8, 0#8, 0#8] := by decide
theorem test_response_moves_left :
    (after (exec (.respReadCo2 0x01#8 0x90#8 0x12#8 0x34#8 0x56#8 0x78#8 0xD5#8)
      { State.reset with inputs := [.edge true false 0#16] }) State.reset).inputs =
      [.edge false true 0x1186#16, .edge false true 0x1201#16, .edge false true 0x1390#16, .edge false true 0x1412#16,
       .edge false true 0x1534#16, .edge false true 0x1656#16, .edge false true 0x1778#16, .edge false true 0x18D5#16,
       .edge false true 0x3000#16, .edge true false 0#16] := by decide
/-- The request frame's first step keeps the other bytes. -/
theorem test_request_first_step :
    (after (exec .reqReadCo2 (withBuffer (Vector.replicate 9 0x55#8))) State.reset).fb =
      #v[0xFF#8, 0x55#8, 0x55#8, 0x55#8, 0x55#8, 0x55#8, 0x55#8, 0x55#8, 0x55#8] := by decide
theorem test_request_moves_left :
    (after (exec .reqReadCo2 State.reset) State.reset).inputs =
      [.edge false true 0x1101#16, .edge false true 0x1286#16, .edge false true 0x1300#16, .edge false true 0x1400#16,
       .edge false true 0x1500#16, .edge false true 0x1600#16, .edge false true 0x1700#16, .edge false true 0x1879#16,
       .edge false true 0x3000#16] := by decide

/-! ### Steps -/

/-- V93: reset wins over any word. -/
theorem test_reset_wins :
    after (step { faulted with fb := goodFrame, inputs := [.edge true true 0x0000#16] }) faulted = State.reset := by decide
/-- V80. -/
theorem test_illegal_word : (after (step (withMoves [.edge false true 0x0000#16])) State.reset).status = 0x18#8 := by decide
/-- R45: `cmd_valid = 0`. -/
theorem test_idle_edge : after (step (withMoves [.edge false false 0xFFFF#16])) faulted = State.reset := by decide
/-- The first step of a frame placed by `withFetchWord`. -/
theorem test_frame_step :
    (after (step (State.reset.withFetchWord 72 0xFF86D60200000000A2)) State.reset).fb =
      #v[0xFF#8, 0#8, 0#8, 0#8, 0#8, 0#8, 0#8, 0#8, 0#8] := by decide
/-- R56: nine bytes of no row are a framing error; V49's registers. -/
theorem test_other_frame_step :
    (fun t : State => (t.status, t.csExp, t.csAct))
      (after (step { withBuffer (Vector.replicate 9 0xFF#8) with inputs := [.edge false true 0x3000#16] }) State.reset) =
      (0x02#8, 0x07#8, 0xFF#8) := by decide

/-! ### The output registers (R22) -/

theorem test_ports : [OutReg.status, .ppm, .csExp, .csAct, .csr].map (fun r => (r.number, r.width)) =
    [(0, 8), (1, 16), (2, 8), (3, 8), (4, 8)] := by decide

/-! ### The assembler (R54, R57): lines of 95_test_vectors.md -/

/-- `LDB 3, 0xD6`, of P1. -/
theorem test_parse_ldb :
    parseLine ['L', 'D', 'B', ' ', '3', ',', ' ', '0', 'x', 'D', '6'] = some [.ldb 3 0xD6] := by decide
/-- `CSUM 3 ; x`, of P5, with a comment. -/
theorem test_parse_csum : parseLine ['C', 'S', 'U', 'M', ' ', '3', ' ', ';', ' ', 'x'] = some [.csum 3] := by decide
/-- `  .reset`. -/
theorem test_parse_reset : parseLine [' ', ' ', '.', 'r', 'e', 's', 'e', 't'] = some [.reset] := by decide
/-- `DEC`. -/
theorem test_parse_dec : parseLine ['D', 'E', 'C'] = some [.dec] := by decide
/-- `.word 0b11`. -/
theorem test_parse_word : parseLine ['.', 'w', 'o', 'r', 'd', ' ', '0', 'b', '1', '1'] = some [.word 3] := by decide
/-- `LDF FF 86`: parsed, then rejected for its length. -/
theorem test_parse_ldf :
    parseLine ['L', 'D', 'F', ' ', 'F', 'F', ' ', '8', '6'] = some [.ldf [0xFF, 0x86]] ∧
    assembleProgram [.ldf [0xFF, 0x86]] = none := by decide
/-- A comment line has no command; a missing comma is no line. -/
theorem test_parse_comment : parseLine [';', 'D', 'E', 'C'] = some [] ∧
    parseLine ['L', 'D', 'B', ' ', '3', ' ', '4'] = none := by decide
/-- `.reset` then `DEC`. -/
theorem test_assemble_program :
    assembleProgram [.reset, .dec] = some [.edge true false 0x0000#16, .edge false true 0x3000#16] := by decide

/-! ### Witnesses: for every statement with hypotheses, a state and operands that meet them, at the clauses' ends -/

theorem witness_CommandWordSelectsItsRow :
    (0x1900#16 &&& 0xF000#16 = 0x1000#16 ∧ 8 < ((0x1900#16).extractLsb' 8 4).toNat) ∧
    (0x2300#16 &&& 0xF0FF#16 = 0x2000#16 ∧ 2 < ((0x2300#16).extractLsb' 8 4).toNat) := by decide
theorem witness_IllegalWordsAreTheListedOnes :
    decodeWord 0x0FFF#16 = .illegal .opcode ∧ decodeWord 0x4000#16 = .illegal .opcode ∧
    decodeWord 0x2001#16 = .illegal .csumValue ∧ decodeWord 0x3001#16 = .illegal .decOperand := by decide
theorem witness_EncodeOfDecode :
    decode (.word 0x1FFF#16) = .legal (.ldb 15#4 0xFF#8) ∧ decode (.frame Config.requestFrame) = .legal .reqReadCo2 := by
  decide
theorem witness_StepRunsDecodedInstruction :
    ((withMoves [.edge false true 0x3000#16]).inputs = presentCode (.word 0x3000#16) ++ [] ∧
      decode (.word 0x3000#16) = .legal .dec) ∧
    (withMoves (presentCode (.frame Config.requestFrame))).inputs = presentCode (.frame Config.requestFrame) ++ [] ∧
      decode (.frame Config.requestFrame) = .legal .reqReadCo2 := by decide
theorem witness_EdgeIsResetOrOneCommandOrNothing :
    (withMoves [.edge true true 0x3000#16]).inputs = HostInput.edge true true 0x3000#16 :: [] ∧
    (HostInput.edge true true 0x3000#16).rst = true ∧
    (HostInput.edge false false 0x3000#16).rst = false ∧ (HostInput.edge false false 0x3000#16).cmdValid = false ∧
    (HostInput.edge false true 0x3000#16).rst = false ∧ (HostInput.edge false true 0x3000#16).cmdValid = true := by
  decide
theorem witness_FetchWordRunsTableWord :
    decodeTableWord 16 0x1000 = some (.ldb 0#4 0#8) ∧ decodeTableWord 72 0xFF0186000000000079 = some .reqReadCo2 := by decide
theorem witness_ResetStepClearsEverything :
    (withMoves [.edge true true 0x3000#16]).inputs = .edge true true 0x3000#16 :: [] := by decide
theorem witness_IdleEdgeChangesNothing :
    (withMoves [.edge false false 0x3000#16]).inputs = .edge false false 0x3000#16 :: [] ∧ State.reset.inputs = [] := by
  decide
theorem witness_IllegalWordRaisesIllegalCmd :
    (withMoves [.edge false true 0x0000#16]).inputs = .edge false true 0x0000#16 :: [] ∧
    decodeWord 0x0000#16 = .illegal .opcode := by decide
theorem witness_LdbWritesOneByte :
    (0#4 : Idx).toNat = (0 : Fin 9).val ∧ (8#4 : Idx).toNat = (8 : Fin 9).val ∧ 8 < (9#4 : Idx).toNat := by decide
theorem witness_LdbIndexRangeFault :
    9 ≤ (9#4 : Idx).toNat ∧ statusErrF State.reset.status = false ∧ statusErrF faulted.status = true := by decide
theorem witness_LdbOrderDoesNotMatter :
    (∃ t u, (0#4 : Idx) ≠ 8#4 ∧ exec (.ldb 0#4 1#8) State.reset = .next t ∧ exec (.ldb 8#4 2#8) State.reset = .next u) ∧
    (8#4 : Idx).toNat = (8 : Fin 9).val := ⟨⟨_, _, by decide, rfl, rfl⟩, by decide⟩
theorem witness_ChecksumLaw :
    (List.replicate 7 0xFF#8).length = 7 ∧
    ((0x07#8).toNat + ((List.replicate 7 0xFF#8).map BitVec.toNat).sum) % 256 = 0 := by decide
theorem witness_ChecksumSeesEveryByteOfItsSpan :
    (1 ≤ (1 : Fin 9).val ∧ (1 : Fin 9).val ≤ 7) ∧ (1 ≤ (7 : Fin 9).val ∧ (7 : Fin 9).val ≤ 7) ∧
    ((0 : Fin 9).val = 0 ∨ (0 : Fin 9).val = 8) ∧ ((8 : Fin 9).val = 0 ∨ (8 : Fin 9).val = 8) ∧
    0x03#8 ≠ goodFrame[7] := by decide
theorem witness_ChecksumBlindToOrder :
    List.Perm [0x02#8, 0xD6#8] [0xD6#8, 0x02#8] ∧ wellFormedResponse goodFrame = true := ⟨.swap _ _ _, by decide⟩
theorem witness_CsumWritesCsr :
    (0#4 : Idx).toNat = (0 : Fin 3).val ∧ (2#4 : Idx).toNat = (2 : Fin 3).val ∧ 2 < (3#4 : Idx).toNat ∧
    (0x01#8 : Byte) ≠ 0x00#8 ∧ (withBuffer Config.requestFrame).fb = Config.requestFrame := by decide
theorem witness_CsumOffsetRangeFault :
    3 ≤ (3#4 : Idx).toNat ∧ 3 ≤ (15#4 : Idx).toNat ∧ statusErrF State.reset.status = false ∧
    statusErrF faulted.status = true := by decide
theorem witness_CsumAgreesWithDec :
    State.reset.fb = Vector.replicate 9 0x00#8 ∧ State.reset.fb = faulted.fb ∧ (2#4 : Idx).toNat ≤ 2 ∧
    (∃ t v, exec (.csum 2#4) State.reset = .next t ∧ exec (.csum 2#4) faulted = .next v) ∧
    ∃ t u, exec (.csum 1#4) State.reset = .next t ∧ exec .dec t = .next u :=
  ⟨by decide, by decide, by decide, ⟨_, _, rfl, rfl⟩, ⟨_, _, rfl, rfl⟩⟩
theorem witness_DecWritesItsResult :
    (Config.requestFrame[0] ≠ 0xFF#8 ∨ Config.requestFrame[1] ≠ 0x86#8) ∧
    (badChecksumFrame[0] = 0xFF#8 ∧ badChecksumFrame[1] = 0x86#8 ∧ checksum badChecksumFrame 1 ≠ badChecksumFrame[8]) ∧
    (goodFrame[0] = 0xFF#8 ∧ goodFrame[1] = 0x86#8 ∧ checksum goodFrame 1 = goodFrame[8]) ∧ (0x001#12 ≠ 0#12) ∧
    (withBuffer goodFrame).fb = #v[0xFF#8, 0x86#8, 0x02#8, 0xD6#8, 0#8, 0#8, 0#8, 0#8, 0xA2#8] := by decide
theorem witness_HeaderCheckedBeforeChecksum :
    statusRes (after (exec .dec (withBuffer badChecksumFrame)) State.reset).status = 3#2 ∧
    (after (exec .dec (withBuffer goodFrame)) State.reset).ppm ≠ (withBuffer goodFrame).ppm := by decide
theorem witness_ConcentrationIsBigEndian :
    goodFrame[0] = 0xFF#8 ∧ goodFrame[1] = 0x86#8 ∧ checksum goodFrame 1 = goodFrame[8] := by decide
theorem witness_DecRepeatedChangesNothing : ∃ t, exec .dec (withBuffer goodFrame) = .next t := ⟨_, rfl⟩
theorem witness_DecDependsOnBufferAlone :
    ∃ t v, State.reset.fb = faulted.fb ∧ exec .dec State.reset = .next t ∧ exec .dec faulted = .next v :=
  ⟨_, _, by decide, rfl, rfl⟩
theorem witness_SingleByteCorruptionIsCaught :
    wellFormedResponse goodFrame = true ∧ (0xFE#8 ≠ goodFrame[0] ∧ 0x87#8 ≠ goodFrame[1] ∧ 0x03#8 ≠ goodFrame[2] ∧
    0x01#8 ≠ goodFrame[7] ∧ 0xA3#8 ≠ goodFrame[8]) ∧
    (withBuffer (goodFrame.set 8 0xA3#8)).fb = goodFrame.set 8 0xA3#8 := by decide
theorem witness_DecodeInvertsEncodeResponse :
    (withBuffer (encodeResponse 742#16 0#8 0#8 0#8 0#8)).fb = encodeResponse 742#16 0#8 0#8 0#8 0#8 ∧
    encodeResponse 742#16 0#8 0#8 0#8 0#8 = #v[0xFF#8, 0x86#8, 0x02#8, 0xE6#8, 0#8, 0#8, 0#8, 0#8, 0x92#8] ∧
    wellFormedResponse goodFrame = true := by decide
/-- A carried checksum that agrees and one that does not. -/
theorem witness_ResponseFrameIsLoadedAndDecoded :
    checksum goodFrame 1 = 0xA2#8 ∧ checksum badChecksumFrame 1 ≠ 0xA3#8 := by decide
theorem witness_ValidateRunsAsTenCommands :
    ∃ ms, assemble (.validate (goodFrame.toList.map BitVec.toNat)) = some ms ∧ (withMoves ms).inputs = ms ++ [] :=
  ⟨_, rfl, (List.append_nil _).symm⟩
theorem witness_FrameLoadsInAnyOrder :
    ∃ ms, assemble (.ldf (goodFrame.toList.map BitVec.toNat)) = some ms ∧ ms.reverse.Perm ms ∧
      (withMoves (ms.reverse ++ [])).inputs = ms.reverse ++ [] := ⟨_, rfl, List.reverse_perm _, rfl⟩
theorem witness_AssemblerWordsDecode :
    (15 < 16 ∧ 255 < 256) ∧ (16 ≤ 16 ∨ 256 ≤ 0) ∧ (16 ≤ 0 ∨ 256 ≤ 256) ∧ 65535 < 65536 ∧ 65536 ≤ 65536 ∧
    ([0, 1, 2, 3, 4, 5, 6, 7, 255].length = 9 ∧ ∀ b ∈ [0, 1, 2, 3, 4, 5, 6, 7, 255], b < 256) ∧
    ([1, 2, 3, 4, 5, 6, 7, 8].length ≠ 9) ∧ ∃ b ∈ [0, 1, 2, 3, 4, 5, 6, 7, 256], 256 ≤ b := by decide
theorem witness_StatusIsItsFields : statusZero faulted.status = 0#2 := by decide
theorem witness_ResWrittenOnlyByDec :
    (∃ t, (withMoves [.edge true true 0x3000#16]).inputs = .edge true true 0x3000#16 :: [] ∧
      step (withMoves [.edge true true 0x3000#16]) = .next t) ∧
    (∃ t, (withMoves [.edge false true 0x3000#16]).inputs = .edge false true 0x3000#16 :: [] ∧
      step (withMoves [.edge false true 0x3000#16]) = .next t ∧ decodeWord 0x3000#16 = .legal .dec) ∧
    ∃ t, (withMoves [.edge false true 0x10FF#16]).inputs = .edge false true 0x10FF#16 :: [] ∧
      step (withMoves [.edge false true 0x10FF#16]) = .next t ∧ ¬ (true = true ∧ decodeWord 0x10FF#16 = .legal .dec) :=
  ⟨⟨_, rfl, rfl⟩, ⟨_, rfl, rfl, by decide⟩, ⟨_, rfl, rfl, by decide⟩⟩
theorem witness_PpmWrittenOnlyByOkDec :
    (∃ t, { withBuffer goodFrame with inputs := [.edge false true 0x3000#16] }.inputs = .edge false true 0x3000#16 :: [] ∧
      step { withBuffer goodFrame with inputs := [.edge false true 0x3000#16] } = .next t) ∧
    decodeWord 0x3000#16 = .legal .dec ∧ wellFormedResponse goodFrame = true ∧
    wellFormedResponse badChecksumFrame = false := ⟨⟨_, rfl, rfl⟩, by decide, by decide, by decide⟩
theorem witness_PpmValidSetByFirstOk :
    statusPpmValid State.reset.status = false ∧ State.reset.ppm = 0x0000#16 ∧
    (∃ t, (withMoves [.edge true false 0x0000#16]).inputs = .edge true false 0x0000#16 :: [] ∧
      step (withMoves [.edge true false 0x0000#16]) = .next t) ∧
    ∃ t, (withMoves [.edge false true 0x10FF#16]).inputs = .edge false true 0x10FF#16 :: [] ∧
      step (withMoves [.edge false true 0x10FF#16]) = .next t ∧ statusPpmValid t.status = false :=
  ⟨by decide, by decide, ⟨_, rfl, rfl⟩, ⟨_, rfl, rfl, by decide⟩⟩
/-- One word for each clause: illegal, LDB 9, CSUM 3, LDB 8, CSUM 2, DEC; a clean and a faulted state. -/
theorem witness_FirstFaultIsRecorded :
    decodeWord 0x0000#16 = .illegal .opcode ∧ (decodeWord 0x1900#16 = .legal (.ldb 9#4 0#8) ∧ 8 < (9#4 : Idx).toNat) ∧
    (decodeWord 0x2300#16 = .legal (.csum 3#4) ∧ 2 < (3#4 : Idx).toNat) ∧
    (decodeWord 0x1800#16 = .legal (.ldb 8#4 0#8) ∧ (8#4 : Idx).toNat ≤ 8) ∧
    (decodeWord 0x2200#16 = .legal (.csum 2#4) ∧ (2#4 : Idx).toNat ≤ 2) ∧ decodeWord 0x3000#16 = .legal .dec ∧
    statusErrF State.reset.status = false ∧ statusErrCode State.reset.status = 0#2 ∧
    statusErrF faulted.status = true := by decide
theorem witness_edge_step_answers :
    ∃ t, { faulted with inputs := [.edge false true 0x1900#16] }.inputs = .edge false true 0x1900#16 :: [] ∧
      step { faulted with inputs := [.edge false true 0x1900#16] } = .next t := ⟨_, rfl, rfl⟩
theorem witness_ChecksumRegistersWrittenOnlyByDec :
    ∃ t, { withBuffer goodFrame with inputs := [.edge false true 0x3000#16] }.inputs = .edge false true 0x3000#16 :: [] ∧
      step { withBuffer goodFrame with inputs := [.edge false true 0x3000#16] } = .next t ∧
      statusRes t.status = 1#2 := ⟨_, rfl, rfl, by decide⟩
theorem witness_CsrWrittenOnlyByCsum :
    decodeWord 0x2000#16 = .legal (.csum (BitVec.ofNat 4 (0 : Fin 3).val)) ∧
    decodeWord 0x2200#16 = .legal (.csum (BitVec.ofNat 4 (2 : Fin 3).val)) ∧
    (∀ o : Fin 3, ¬ (true = true ∧ decodeWord 0x2300#16 = .legal (.csum (BitVec.ofNat 4 o.val)))) ∧
    ∃ t, (withMoves [.edge false true 0x2200#16]).inputs = .edge false true 0x2200#16 :: [] ∧
      step (withMoves [.edge false true 0x2200#16]) = .next t := ⟨by decide, by decide, by decide, ⟨_, rfl, rfl⟩⟩
theorem witness_BufferWrittenOnlyByLdb :
    ∃ t, (withMoves [.edge false true 0x18A2#16]).inputs = .edge false true 0x18A2#16 :: [] ∧
      step (withMoves [.edge false true 0x18A2#16]) = .next t := ⟨_, rfl, rfl⟩
theorem witness_EventsArePrecise :
    ∃ t, (withMoves [.edge false true 0x2300#16]).inputs = .edge false true 0x2300#16 :: [] ∧
      step (withMoves [.edge false true 0x2300#16]) = .next t ∧
      statusErrF t.status ≠ statusErrF (withMoves [.edge false true 0x2300#16]).status := ⟨_, rfl, rfl, by decide⟩
theorem witness_StickyBitsStay :
    (∀ m ∈ [HostInput.edge false true 0x3000#16], m.isReset = false) ∧
    (∃ t, Host.Core.run Sys2Proof.core 1 { faulted with status := 0x1D#8, inputs := [.edge false true 0x3000#16] } =
      .next t) ∧ statusPpmValid 0x1D#8 = true ∧ statusErrF 0x1D#8 = true := ⟨by decide, ⟨_, rfl⟩, by decide, by decide⟩
/-- A run without a breach, and one with: DEC, then LDB 9. -/
theorem witness_FaultExactlyOnBreach :
    (withMoves [.edge false true 0x3000#16, .edge false true 0x1900#16]).clean = true ∧
    (∀ m ∈ [HostInput.edge false true 0x3000#16, .edge false true 0x1900#16], m.isReset = false) ∧
    (∀ m ∈ [HostInput.edge false true 0x3000#16, .edge false true 0x1900#16].take 1, m.breachesH8 = false) ∧
    HostInput.breachesH8 (.edge false true 0x1900#16) = true ∧
    ∃ t, Host.Core.run Sys2Proof.core 2 (withMoves [.edge false true 0x3000#16, .edge false true 0x1900#16]) =
      .next t := ⟨by decide, by decide, by decide, by decide, ⟨_, rfl⟩⟩
theorem witness_FaultDoesNotDisturbTheRun :
    State.reset.sameButFault faulted ∧ (∃ t, Host.Core.run Sys2Proof.core 1 State.reset = .next t) ∧
    ∃ v, Host.Core.run Sys2Proof.core 1 faulted = .next v :=
  ⟨by unfold State.sameButFault; decide, ⟨_, rfl⟩, ⟨_, rfl⟩⟩
theorem witness_BufferIsNotReadable :
    (withMoves [.edge false true 0x10FF#16]).sameButBuffer
      { withMoves [.edge false true 0x10FF#16] with fb := goodFrame } ∧
    (∀ m ∈ [HostInput.edge false true 0x10FF#16], m.runs Instr.readsBuffer = false) ∧
    (∃ t, Host.Core.run Sys2Proof.core 1 (withMoves [.edge false true 0x10FF#16]) = .next t) ∧
    ∃ v, Host.Core.run Sys2Proof.core 1 { withMoves [.edge false true 0x10FF#16] with fb := goodFrame } = .next v :=
  ⟨by unfold State.sameButBuffer; decide, by decide, ⟨_, rfl⟩, ⟨_, rfl⟩⟩
theorem witness_BufferByteHoldsTheLastLoad :
    (withMoves [.edge false true 0x18A2#16, .edge false true 0x3000#16]).inputs =
      .edge false true 0x18A2#16 :: [.edge false true 0x3000#16] ∧
    decodeWord 0x18A2#16 = .legal (.ldb 8#4 0xA2#8) ∧ (8#4 : Idx).toNat = (8 : Fin 9).val ∧
    (∀ m ∈ [HostInput.edge false true 0x3000#16], m.isReset = false ∧ m.runs (Instr.loads 8) = false) ∧
    ∃ t, Host.Core.run Sys2Proof.core (1 + 1)
      (withMoves [.edge false true 0x18A2#16, .edge false true 0x3000#16]) = .next t :=
  ⟨by decide, by decide, by decide, by decide, ⟨_, rfl⟩⟩
theorem witness_ReadingOutlivesOtherCommands :
    (∀ m ∈ [HostInput.edge false true 0x2100#16], m.isReset = false ∧ m.runs Instr.decodesBuffer = false) ∧
    ∃ t, Host.Core.run Sys2Proof.core 1 (withMoves [.edge false true 0x2100#16]) = .next t := ⟨by decide, ⟨_, rfl⟩⟩
theorem witness_InvariantKeptByEveryStep :
    (withMoves [.edge false true 0x3000#16]).Inv ∧ ∃ t, step (withMoves [.edge false true 0x3000#16]) = .next t :=
  ⟨by decide, ⟨_, rfl⟩⟩

end Sys2Proof.Tests
end

section
/-! PROOFS of the family 00_scope: one host move becomes one step (R2, R3, R45), and `VALIDATE` is ten such steps
(R57). -/

namespace Sys2Proof.Machine

/-! ### A command step by its word's decoding -/

/-- A word that decodes to an instruction runs it. -/
theorem runWord_of_legal {w : Word} {i : Instr} (h : decodeWord w = .legal i) (s : State) :
    runWord w s = exec i s := by simp [runWord, h]

/-- A word that selects no row raises `ILLEGAL_CMD` (R48). -/
theorem runWord_of_illegal {w : Word} {why : Illegal} (h : decodeWord w = .illegal why) (s : State) :
    runWord w s = .next (raiseCmdFault .illegalCmd s) := by simp [runWord, h]

/-- Settles O54, by the decoding of the move's word: a legal one is a command of R47 and never a frame. -/
theorem edgeIsResetOrOneCommandOrNothing : Obligations.EdgeIsResetOrOneCommandOrNothing := by
  rintro s ⟨rst, valid, cmd⟩ rest hs
  refine ⟨?_, ?_, ?_⟩
  · rintro rfl
    exact step_cons hs
  · rintro rfl rfl
    exact step_cons hs
  · rintro rfl rfl
    rw [step_issueWord hs]
    cases hd : decodeWord cmd with
    | illegal why => exact .inr (.inr (.inr ⟨why, rfl, runWord_of_illegal hd _⟩))
    | legal i =>
      have hrun := runWord_of_legal hd (s.setInputs rest)
      obtain ⟨idx, val, rfl⟩ | ⟨off, rfl⟩ | rfl := decodeWord_legal hd
      · exact .inl ⟨idx, val, rfl, hrun⟩
      · exact .inr (.inl ⟨off, rfl, hrun⟩)
      · exact .inr (.inr (.inl ⟨rfl, hrun⟩))

/-! ### Runs -/

/-- A run of `k + n` steps is one of `n` steps from where its first `k` end. -/
theorem run_add {k : Nat} {s t : State} (h : Host.Core.run Sys2Proof.core k s = .next t) (n : Nat) :
    Host.Core.run Sys2Proof.core (k + n) s = Host.Core.run Sys2Proof.core n t := by
  induction k generalizing s with
  | zero =>
    cases h
    rw [Nat.zero_add]
  | succ k ih =>
    rw [Nat.succ_add]
    cases hstep : Sys2Proof.core.step s with
    | next u =>
      simp only [Host.Core.run, hstep] at h ⊢
      exact ih h
    | fault r => simp [Host.Core.run, hstep] at h
    | refused r => simp [Host.Core.run, hstep] at h

/-! ### The moves of VALIDATE -/

/-- A frame is presented by ten moves (R57). -/
theorem validateMoves_length (f : Frame) : (validateMoves f).length = 10 := by
  simp [validateMoves, loadMoves]

/-- After the ninth load only `DEC` is left to issue. -/
theorem validateMoves_drop_nine (f : Frame) : (validateMoves f).drop 9 = [issueWord decWord] :=
  List.drop_left' (by simp [loadMoves])

/-- Up to the `DEC`, the moves of `VALIDATE` are the loads of the first `k` bytes and the moves still to come. -/
theorem validateMoves_split (f : Frame) {k : Nat} (hk : k ≤ 9) :
    validateMoves f = ((List.finRange 9).take k).map (fun i => issueWord (ldbWord (BitVec.ofNat 4 i.val) f[i])) ++
      (validateMoves f).drop k := by
  have hlen : k ≤ (loadMoves f).length := by simpa [loadMoves] using hk
  rw [List.map_take, ← loadMoves, ← List.take_append_of_le_length hlen (l₂ := [issueWord decWord]), ← validateMoves,
    List.take_append_drop]

/-- The first `k` indices of the buffer are those below `k`. -/
theorem mem_take_finRange {n k : Nat} {i : Fin n} : i ∈ (List.finRange n).take k ↔ i.val < k := by
  simp only [List.mem_take_iff_getElem, List.getElem_finRange, Fin.ext_iff]
  constructor
  · rintro ⟨j, hj, rfl⟩
    simpa using hj
  · intro h
    exact ⟨i.val, by simp [h], rfl⟩

/-- After `k` of the nine loads the first `k` bytes of the buffer are the frame's and the others as before, and nothing
else but the pending moves has changed. -/
theorem run_validate_loads (f : Frame) {s : State} {rest : List HostInput} (hs : s.inputs = validateMoves f ++ rest)
    {k : Nat} (hk : k ≤ 9) :
    ∃ g : Frame, Host.Core.run Sys2Proof.core k s =
        .next ({ s with fb := g, inputs := (validateMoves f).drop k ++ rest } : State) ∧
      ∀ i : Fin 9, g[i] = if i.val < k then f[i] else s.fb[i] := by
  rw [validateMoves_split f hk, List.append_assoc] at hs
  have hrun := run_loads f _ s _ hs
  rw [foldl_writeByte, List.length_take, List.length_finRange, Nat.min_eq_left hk] at hrun
  refine ⟨_, hrun, fun i => ?_⟩
  rw [foldl_writeByte_read, State.setInputs_fb]
  simp only [mem_take_finRange]

/-- The ten steps of a frame's `VALIDATE` end as `DEC` does on the loaded frame (R57). -/
theorem run_validate (f : Frame) {s : State} {rest : List HostInput} (hs : s.inputs = validateMoves f ++ rest) :
    Host.Core.run Sys2Proof.core 10 s = exec .dec { s with fb := f, inputs := rest } := by
  obtain ⟨g, hrun, hg⟩ := run_validate_loads f hs (le_refl 9)
  have hgf : g = f := Vector.ext fun i hi => (hg ⟨i, hi⟩).trans (if_pos hi)
  subst hgf
  rw [run_add hrun 1]
  exact run_decWord (by rw [validateMoves_drop_nine]; rfl)

/-- Settles O34: the assembler's moves are `validateMoves`, whose loads run one step each and whose tenth is `DEC`. -/
theorem validateRunsAsTenCommands : Obligations.ValidateRunsAsTenCommands := by
  intro f s rest ms hms hs
  obtain rfl : presentCode (.frame f) = ms := Option.some.inj ((assemble_validate f).symm.trans hms)
  exact ⟨validateMoves_length f, rfl, fun k hk => run_validate_loads f hs hk, run_validate f hs⟩

end Sys2Proof.Machine
end

section
/-! PROOFS of the family 10_state, first part: the effect of one host move as a relation, with the facts every state
rule needs of it. -/

namespace Sys2Proof.Machine

/-! ### The effect of one host move -/

/-- The word raises the command fault: the three causes of R19 and R95. -/
def RaisesFault (w : Word) : CmdFault → Prop
  | .illegalCmd => ∃ why, decodeWord w = .illegal why
  | .indexRange => ∃ idx val, decodeWord w = .legal (.ldb idx val) ∧ 8 < idx.toNat
  | .offsetRange => ∃ off, decodeWord w = .legal (.csum off) ∧ 2 < off.toNat

/-- What a host move does to the block, one constructor per kind of effect, each with the word that has it. It is
`acceptInput` as a relation (`acceptInput_eq_next_iff`), for case analysis by named cases. -/
inductive MoveEffect (s : State) : HostInput → State → Prop
  | reset (valid : Bool) (cmd : Word) : MoveEffect s (.edge true valid cmd) (resetStep s)
  | idle (cmd : Word) : MoveEffect s (.edge false false cmd) s
  | loaded {w : Word} {idx : Idx} {val : Byte} {i : Fin 9} (hd : decodeWord w = .legal (.ldb idx val))
      (hi : idx.toNat = i.val) : MoveEffect s (.edge false true w) (s.writeByte i val)
  | summed {w : Word} {off : Idx} {o : Fin 3} (hd : decodeWord w = .legal (.csum off)) (ho : off.toNat = o.val) :
      MoveEffect s (.edge false true w) (s.setCsr (checksum s.fb o))
  | decoded {w : Word} (hd : decodeWord w = .legal .dec) : MoveEffect s (.edge false true w) (decodeBuffer s)
  | faulted {w : Word} {f : CmdFault} (hf : RaisesFault w f) :
      MoveEffect s (.edge false true w) (raiseCmdFault f s)

/-- A word that raises a fault does so in every state. -/
theorem runWord_of_raisesFault {w : Word} {f : CmdFault} (h : RaisesFault w f) (s : State) :
    runWord w s = .next (raiseCmdFault f s) := by
  cases f with
  | illegalCmd =>
    obtain ⟨why, hd⟩ := h
    exact runWord_of_illegal hd s
  | indexRange =>
    obtain ⟨idx, val, hd, hi⟩ := h
    exact (runWord_of_legal hd s).trans (execLdb_of_range hi val s)
  | offsetRange =>
    obtain ⟨off, hd, ho⟩ := h
    exact (runWord_of_legal hd s).trans (execCsum_of_range ho s)

/-- A move does what its effect says. -/
theorem MoveEffect.acceptInput_eq {s t : State} {m : HostInput} (h : MoveEffect s m t) :
    acceptInput m s = .next t := by
  cases h with
  | reset => rfl
  | idle => rfl
  | loaded hd hi => exact (runWord_of_legal hd s).trans (execLdb_of_index hi _ s)
  | summed hd ho => exact (runWord_of_legal hd s).trans (execCsum_of_offset ho s)
  | decoded hd => exact runWord_of_legal hd s
  | faulted hf => exact runWord_of_raisesFault hf s

/-- Every move has an effect in every state. -/
theorem exists_moveEffect (m : HostInput) (s : State) : ∃ t, MoveEffect s m t := by
  obtain ⟨rst, valid, cmd⟩ := m
  cases rst
  · cases valid
    · exact ⟨_, .idle cmd⟩
    · obtain ⟨idx, val, i, hd, hi, -⟩ | ⟨idx, val, hd, hi, -⟩ | ⟨off, o, hd, ho, -⟩ | ⟨off, hd, ho, -⟩ | ⟨hd, -⟩ |
        ⟨why, hd, -⟩ := runWord_cases cmd s
      · exact ⟨_, .loaded hd hi⟩
      · exact ⟨_, .faulted (f := .indexRange) ⟨idx, val, hd, hi⟩⟩
      · exact ⟨_, .summed hd ho⟩
      · exact ⟨_, .faulted (f := .offsetRange) ⟨off, hd, ho⟩⟩
      · exact ⟨_, .decoded hd⟩
      · exact ⟨_, .faulted (f := .illegalCmd) ⟨why, hd⟩⟩
  · exact ⟨_, .reset valid cmd⟩

/-- The relation is `acceptInput`. -/
theorem acceptInput_eq_next_iff {s t : State} {m : HostInput} : acceptInput m s = .next t ↔ MoveEffect s m t := by
  refine ⟨fun h => ?_, MoveEffect.acceptInput_eq⟩
  obtain ⟨u, hu⟩ := exists_moveEffect m s
  obtain rfl : u = t := Host.Outcome.next.inj (hu.acceptInput_eq.symm.trans h)
  exact hu

/-- A move has one effect. -/
theorem MoveEffect.unique {s t u : State} {m : HostInput} (ht : MoveEffect s m t) (hu : MoveEffect s m u) : t = u :=
  Host.Outcome.next.inj (ht.acceptInput_eq.symm.trans hu.acceptInput_eq)

/-- A step has the effect of the host's next move. -/
theorem moveEffect_of_step {s t : State} {m : HostInput} {rest : List HostInput} (hs : s.inputs = m :: rest)
    (h : step s = .next t) : MoveEffect (s.setInputs rest) m t :=
  acceptInput_eq_next_iff.1 ((step_cons hs).symm.trans h)

/-- Everything a step can do: nothing with no move left, else the effect of the host's next move. -/
theorem step_cases {s t : State} (h : step s = .next t) :
    (s.inputs = [] ∧ t = s) ∨ ∃ m rest, s.inputs = m :: rest ∧ MoveEffect (s.setInputs rest) m t := by
  cases hs : s.inputs with
  | nil => exact .inl ⟨rfl, Host.Outcome.next.inj (h.symm.trans (step_nil hs))⟩
  | cons m rest => exact .inr ⟨m, rest, rfl, moveEffect_of_step hs h⟩

/-- No move changes the host's later moves (R112). -/
theorem MoveEffect.inputs {s t : State} {m : HostInput} (h : MoveEffect s m t) : t.inputs = s.inputs := by
  cases h with
  | reset => rfl
  | idle => rfl
  | loaded => rfl
  | summed => rfl
  | decoded =>
    obtain ⟨-, -, hin, -⟩ := decodeBuffer_frame s
    exact hin
  | @faulted w f hf =>
    obtain ⟨-, -, -, -, -, hin⟩ := raiseCmdFault_frame f s
    exact hin

/-! ### The kind of command a move runs -/

/-- A command move runs the instruction its word decodes to. -/
theorem HostInput.runs_of_legal {w : Word} {i : Instr} (h : decodeWord w = .legal i) (p : Instr → Bool) :
    (HostInput.edge false true w).runs p = p i := by simp [HostInput.runs, h]

/-- At an edge without reset the buffer is decoded exactly by a `DEC`; no command word is a frame. -/
theorem HostInput.runs_decodesBuffer {valid : Bool} {cmd : Word} :
    (HostInput.edge false valid cmd).runs Instr.decodesBuffer = true ↔
      valid = true ∧ decodeWord cmd = .legal .dec := by
  cases valid with
  | false => simp [HostInput.runs]
  | true =>
    cases hd : decodeWord cmd with
    | illegal why => simp [HostInput.runs, hd]
    | legal i =>
      rw [HostInput.runs_of_legal hd]
      obtain ⟨idx, val, rfl⟩ | ⟨off, rfl⟩ | rfl := decodeWord_legal hd
      · simp [Instr.decodesBuffer]
      · simp [Instr.decodesBuffer]
      · simp [Instr.decodesBuffer]

/-! ### What DEC writes, by the well-formedness of the buffer (R51, R78) -/

/-- The header is `FF 86` (R75). -/
theorem headerOk_iff {fb : Frame} : headerOk fb = true ↔ fb[0] = 0xFF#8 ∧ fb[1] = 0x86#8 := by
  simp [headerOk]

/-- The header is not `FF 86`. -/
theorem headerOk_eq_false_iff {fb : Frame} : headerOk fb = false ↔ fb[0] ≠ 0xFF#8 ∨ fb[1] ≠ 0x86#8 := by
  rw [← Bool.not_eq_true, headerOk_iff, not_and_or]

/-- The checksum of bytes 1 to 7 is byte 8 (R76). -/
theorem checksumOk_iff {fb : Frame} : checksumOk fb = true ↔ checksum fb 1 = fb[8] := by
  simp [checksumOk]

/-- A well-formed buffer has both checks right (R51). -/
theorem wellFormedResponse_iff {fb : Frame} :
    wellFormedResponse fb = true ↔ headerOk fb = true ∧ checksumOk fb = true := by
  simp [wellFormedResponse]

/-- The concentration is `FB[2] * 256 + FB[3]` (R77): two bytes never overflow 16 bits. -/
theorem concentration_toNat (fb : Frame) : (concentration fb).toNat = fb[2].toNat * 256 + fb[3].toNat := by
  have hhi := fb[2].isLt
  have hlo := fb[3].isLt
  simp [concentration]
  omega

/-- `DEC` on a well-formed buffer writes the reading (R17, R18). -/
theorem decodeBuffer_of_wellFormed {s : State} (h : wellFormedResponse s.fb = true) :
    statusRes (decodeBuffer s).status = resCode .ok ∧ (decodeBuffer s).ppm = concentration s.fb ∧
    statusPpmValid (decodeBuffer s).status = true := by
  obtain ⟨hh, hc⟩ := wellFormedResponse_iff.1 h
  exact decodeBuffer_of_ok hh hc

/-- `DEC` on an ill-formed buffer keeps the reading (R17). -/
theorem decodeBuffer_of_illFormed {s : State} (h : wellFormedResponse s.fb = false) :
    statusRes (decodeBuffer s).status ≠ resCode .ok ∧ (decodeBuffer s).ppm = s.ppm ∧
    statusPpmValid (decodeBuffer s).status = statusPpmValid s.status := by
  obtain ⟨-, hr, hkeep⟩ | ⟨-, -, hr, hkeep⟩ | ⟨hh, hc, -⟩ := decodeBuffer_cases s
  · exact ⟨by rw [hr]; decide, hkeep⟩
  · exact ⟨by rw [hr]; decide, hkeep⟩
  · simp [wellFormedResponse_iff.2 ⟨hh, hc⟩] at h

/-! ### Moves that keep the reading -/

/-- The two states hold the same reading and the same report of it: `PPM`, `PPM_VALID`, `RES`, `CS_EXP`, `CS_ACT`. -/
def State.sameReading (s t : State) : Prop :=
  t.ppm = s.ppm ∧ statusPpmValid t.status = statusPpmValid s.status ∧ statusRes t.status = statusRes s.status ∧
  t.csExp = s.csExp ∧ t.csAct = s.csAct

/-- A state holds its own reading. -/
theorem State.sameReading.refl (s : State) : s.sameReading s := ⟨rfl, rfl, rfl, rfl, rfl⟩

/-- Keeping the reading twice keeps it. -/
theorem State.sameReading.trans {s t u : State} (h : s.sameReading t) (h' : t.sameReading u) : s.sameReading u := by
  obtain ⟨h1, h2, h3, h4, h5⟩ := h
  obtain ⟨h1', h2', h3', h4', h5'⟩ := h'
  exact ⟨h1'.trans h1, h2'.trans h2, h3'.trans h3, h4'.trans h4, h5'.trans h5⟩

/-- A command fault keeps the reading. -/
theorem raiseCmdFault_sameReading (f : CmdFault) (s : State) : s.sameReading (raiseCmdFault f s) := by
  obtain ⟨-, hppm, hexp, hact, -, -⟩ := raiseCmdFault_frame f s
  obtain ⟨-, hres, hvalid, -, -⟩ := raiseCmdFault_status f s
  exact ⟨hppm, hvalid, hres, hexp, hact⟩

/-- Every move but `DEC` and reset keeps the reading (R16, R17, R18, R20). -/
theorem MoveEffect.sameReading {s t : State} {m : HostInput} (h : MoveEffect s m t) (hr : m.isReset = false)
    (hd : m.runs Instr.decodesBuffer = false) : s.sameReading t := by
  cases h with
  | reset => cases hr
  | idle => exact .refl s
  | loaded => exact .refl s
  | summed => exact .refl s
  | decoded hdec => simp [HostInput.runs_of_legal hdec, Instr.decodesBuffer] at hd
  | faulted => exact raiseCmdFault_sameReading _ s

/-- The same at an edge without reset, by the decoding of its word. -/
theorem MoveEffect.sameReading_of_not_dec {s t : State} {valid : Bool} {cmd : Word}
    (h : MoveEffect s (.edge false valid cmd) t) (hn : ¬ (valid = true ∧ decodeWord cmd = .legal .dec)) :
    s.sameReading t :=
  h.sameReading rfl (Bool.eq_false_iff.2 (mt HostInput.runs_decodesBuffer.1 hn))

/-- A `DEC` edge decodes the buffer. -/
theorem MoveEffect.eq_decodeBuffer {s t : State} {valid : Bool} {cmd : Word}
    (h : MoveEffect s (.edge false valid cmd) t) (hd : valid = true ∧ decodeWord cmd = .legal .dec) :
    t = decodeBuffer s := by
  obtain ⟨rfl, hd⟩ := hd
  exact h.unique (.decoded hd)

/-- A reset edge resets, whatever stands on the command port (R98). -/
theorem MoveEffect.eq_resetStep {s t : State} {valid : Bool} {cmd : Word}
    (h : MoveEffect s (.edge true valid cmd) t) : t = resetStep s := h.unique (.reset valid cmd)

/-- After a reset every field of `STATUS` is 0 (R24). -/
theorem resetStep_status (s : State) :
    statusRes (resetStep s).status = 0#2 ∧ statusPpmValid (resetStep s).status = false ∧
    statusErrF (resetStep s).status = false ∧ statusErrCode (resetStep s).status = 0#2 := by
  have hzero : (resetStep s).status = 0x00#8 := rfl
  rw [hzero]
  decide

/-! ### The fault fields -/

/-- An edge without reset keeps `ERR_F` and `ERR_CODE`, or records the first fault (R19). -/
theorem MoveEffect.fault_fields {s t : State} {m : HostInput} (h : MoveEffect s m t) (hr : m.isReset = false) :
    (statusErrF t.status = statusErrF s.status ∧ statusErrCode t.status = statusErrCode s.status) ∨
    (statusErrF s.status = false ∧ statusErrF t.status = true) := by
  cases h with
  | reset => cases hr
  | idle => exact .inl ⟨rfl, rfl⟩
  | loaded => exact .inl ⟨rfl, rfl⟩
  | summed => exact .inl ⟨rfl, rfl⟩
  | decoded =>
    obtain ⟨-, -, -, -, -, herr, hcode, -⟩ := decodeBuffer_frame s
    exact .inl ⟨herr, hcode⟩
  | @faulted w f hf =>
    cases hs : statusErrF s.status with
    | false =>
      obtain ⟨-, -, -, herr, -⟩ := raiseCmdFault_status f s
      exact .inr ⟨rfl, herr⟩
    | true => simp [raiseCmdFault_of_fault f hs, hs]

/-- With `ERR_F = 1` an edge without reset keeps both fault fields (R96). -/
theorem MoveEffect.keeps_fault {s t : State} {m : HostInput} (h : MoveEffect s m t) (hr : m.isReset = false)
    (hs : statusErrF s.status = true) :
    statusErrF t.status = true ∧ statusErrCode t.status = statusErrCode s.status := by
  obtain ⟨herr, hcode⟩ | ⟨hclean, -⟩ := h.fault_fields hr
  · exact ⟨herr.trans hs, hcode⟩
  · simp [hs] at hclean

/-- In a clean state a word that raises a fault records its code (R19). -/
theorem MoveEffect.records_fault {s t : State} {w : Word} {f : CmdFault} (h : MoveEffect s (.edge false true w) t)
    (hs : statusErrF s.status = false) (hf : RaisesFault w f) :
    statusErrF t.status = true ∧ statusErrCode t.status = faultCode f := by
  obtain rfl := h.unique (.faulted hf)
  simp [raiseCmdFault_of_clean f hs]

/-! ### The valid flag and PPM -/

/-- After an edge without reset `PPM_VALID` is 1 exactly if it was or the edge is a `DEC` of a well-formed buffer
(R18). -/
theorem MoveEffect.ppmValid_iff {s t : State} {valid : Bool} {cmd : Word}
    (h : MoveEffect s (.edge false valid cmd) t) :
    statusPpmValid t.status = true ↔ statusPpmValid s.status = true ∨
      (valid = true ∧ decodeWord cmd = .legal .dec ∧ wellFormedResponse s.fb = true) := by
  by_cases hd : valid = true ∧ decodeWord cmd = .legal .dec
  · obtain rfl := h.eq_decodeBuffer hd
    cases hwf : wellFormedResponse s.fb with
    | false =>
      obtain ⟨-, -, hkept⟩ := decodeBuffer_of_illFormed hwf
      simp [hkept]
    | true =>
      obtain ⟨-, -, hset⟩ := decodeBuffer_of_wellFormed hwf
      simp [hset, hd]
  · obtain ⟨-, hkept, -⟩ := h.sameReading_of_not_dec hd
    rw [hkept, ← and_assoc]
    simp [hd]

/-- At an edge without reset `PPM` changes only at a `DEC` of a well-formed buffer (R17). -/
theorem MoveEffect.ppm_kept {s t : State} {valid : Bool} {cmd : Word} (h : MoveEffect s (.edge false valid cmd) t)
    (hn : ¬ (valid = true ∧ decodeWord cmd = .legal .dec ∧ wellFormedResponse s.fb = true)) : t.ppm = s.ppm := by
  by_cases hd : valid = true ∧ decodeWord cmd = .legal .dec
  · obtain rfl := h.eq_decodeBuffer hd
    obtain ⟨-, hkept, -⟩ := decodeBuffer_of_illFormed (s := s) (by simpa [hd] using hn)
    exact hkept
  · obtain ⟨hkept, -⟩ := h.sameReading_of_not_dec hd
    exact hkept

/-- No edge without reset clears `PPM_VALID` (R18, R25 (g)). -/
theorem MoveEffect.keeps_ppmValid {s t : State} {m : HostInput} (h : MoveEffect s m t) (hr : m.isReset = false)
    (hs : statusPpmValid s.status = true) : statusPpmValid t.status = true := by
  obtain ⟨rst, valid, cmd⟩ := m
  obtain rfl : rst = false := hr
  exact h.ppmValid_iff.2 (.inl hs)

/-- `PPM` stays 0 while `PPM_VALID` is 0 (R18, R25 (c)). -/
theorem MoveEffect.ppm_zero {s t : State} {m : HostInput} (h : MoveEffect s m t)
    (hs : statusPpmValid s.status = false → s.ppm = 0x0000#16) (ht : statusPpmValid t.status = false) :
    t.ppm = 0x0000#16 := by
  obtain ⟨rst, valid, cmd⟩ := m
  cases rst with
  | true =>
    obtain rfl := h.eq_resetStep
    rfl
  | false =>
    rw [← Bool.not_eq_true, h.ppmValid_iff, not_or, Bool.not_eq_true] at ht
    obtain ⟨hinvalid, hdec⟩ := ht
    exact (h.ppm_kept hdec).trans (hs hinvalid)

/-! ### Rules that hold along a run -/

/-- A run takes its first step and goes on from there. -/
theorem run_succ_cases {k : Nat} {s t : State} (h : Host.Core.run Sys2Proof.core (k + 1) s = .next t) :
    ∃ u, step s = .next u ∧ Host.Core.run Sys2Proof.core k u = .next t := by
  cases hstep : step s with
  | next u => exact ⟨u, rfl, (run_succ hstep k).symm.trans h⟩
  | fault r => exact nomatch r
  | refused r =>
    have hcore : Sys2Proof.core.step s = .refused r := hstep
    simp [Host.Core.run, hcore] at h

/-- Two runs in lockstep: a relation of states with the same pending moves that every allowed move keeps holds after any
number of steps on allowed moves. -/
theorem run_lockstep {ok : HostInput → Prop} {R : State → State → Prop}
    (hin : ∀ {s u}, R s u → u.inputs = s.inputs)
    (hmove : ∀ {s u t v m rest}, R s u → ok m → MoveEffect (s.setInputs rest) m t →
      MoveEffect (u.setInputs rest) m v → R t v)
    {k : Nat} {s u t v : State} (hR : R s u) (hok : ∀ m ∈ s.inputs, ok m)
    (hs : Host.Core.run Sys2Proof.core k s = .next t) (hu : Host.Core.run Sys2Proof.core k u = .next v) : R t v := by
  induction k generalizing s u with
  | zero =>
    cases hs
    cases hu
    exact hR
  | succ k ih =>
    obtain ⟨s', hs', hst⟩ := run_succ_cases hs
    obtain ⟨u', hu', huv⟩ := run_succ_cases hu
    obtain ⟨hnil, rfl⟩ | ⟨m, rest, hcons, he⟩ := step_cases hs'
    · obtain rfl : u' = u := Host.Outcome.next.inj (hu'.symm.trans (step_nil ((hin hR).trans hnil)))
      exact ih hR hok hst huv
    · have he' := moveEffect_of_step ((hin hR).trans hcons) hu'
      rw [hcons] at hok
      refine ih (hmove hR (hok m List.mem_cons_self) he he') (fun n hn => hok n ?_) hst huv
      rw [he.inputs] at hn
      exact List.mem_cons_of_mem m hn

/-- A property that every allowed move keeps holds after any number of steps on allowed moves. -/
theorem run_invariant {ok : HostInput → Prop} {P : State → Prop}
    (hmove : ∀ {s t m rest}, P s → ok m → MoveEffect (s.setInputs rest) m t → P t)
    {k : Nat} {s t : State} (hP : P s) (hok : ∀ m ∈ s.inputs, ok m)
    (h : Host.Core.run Sys2Proof.core k s = .next t) : P t :=
  (run_lockstep (R := fun s u => P s ∧ u.inputs = s.inputs) (fun hR => hR.2)
    (fun hR hm ht hv => ⟨hmove hR.1 hm ht, hv.inputs.trans ht.inputs.symm⟩) ⟨hP, rfl⟩ hok h h).1

end Sys2Proof.Machine
end

section
/-! PROOFS of the family 10_state, second part: the registers and their writers (R15 to R24), the invariant (R25), and
what stays over a run. -/

namespace Sys2Proof.Machine

/-! ### The invariant of R25 -/

/-- Settles O53, by evaluation of the all-zero state. -/
theorem invariantHoldsAtReset : Obligations.InvariantHoldsAtReset := by
  unfold Obligations.InvariantHoldsAtReset
  decide

/-- A reset establishes the invariant, which does not speak of the pending moves. -/
theorem resetStep_inv (s : State) : (resetStep s).Inv := by
  obtain ⟨hinv, -, -⟩ := invariantHoldsAtReset
  exact hinv

/-- A command fault keeps the invariant: a recorded fault has a code (R25 (b)). -/
theorem raiseCmdFault_inv {s : State} (h : s.Inv) (f : CmdFault) : (raiseCmdFault f s).Inv := by
  obtain ⟨hzero, hclean, hfault, hppm, hok, hmismatch, hnone⟩ := h
  obtain ⟨hppm', hvalid', hres', hexp', hact'⟩ := raiseCmdFault_sameReading f s
  obtain ⟨hzero', -, -, herr', hcode'⟩ := raiseCmdFault_status f s
  refine ⟨hzero'.trans hzero, fun hn => ?_, fun _ => ?_, ?_, ?_, ?_, ?_⟩
  · rw [herr'] at hn
    cases hn
  · rw [hcode']
    split
    · next hs => exact hfault hs
    · exact faultCode_ne_zero f
  · rwa [hvalid', hppm']
  · rwa [hres', hvalid', hexp', hact']
  · rwa [hres', hexp', hact']
  · rwa [hres', hvalid', hexp', hact']

/-- After a `DEC` too, `PPM` is 0 while `PPM_VALID` is 0 (R25 (c)). -/
theorem decodeBuffer_ppm_zero {s : State} (h : statusPpmValid s.status = false → s.ppm = 0x0000#16) :
    statusPpmValid (decodeBuffer s).status = false → (decodeBuffer s).ppm = 0x0000#16 :=
  (MoveEffect.decoded (w := decWord) rfl).ppm_zero h

/-- `DEC` keeps the invariant: it writes both checksum registers from the buffer it judges, so they are equal exactly
when the checksum is right (R25 (d), (e)), and never writes `NONE` (R25 (f)). -/
theorem decodeBuffer_inv {s : State} (h : s.Inv) : (decodeBuffer s).Inv := by
  obtain ⟨hzero, hclean, hfault, hppm, -, -, -⟩ := h
  obtain ⟨-, -, -, hexp, hact, herr, hcode, hzero'⟩ := decodeBuffer_frame s
  refine ⟨hzero'.trans hzero, by rwa [herr, hcode], by rwa [herr, hcode], decodeBuffer_ppm_zero hppm, ?_⟩
  rw [hexp, hact]
  obtain ⟨-, hres, -⟩ | ⟨-, hcs, hres, -⟩ | ⟨-, hcs, hres, -, hvalid⟩ := decodeBuffer_cases s
  · rw [hres]
    simp [resCode]
  · rw [hres]
    simpa [resCode, checksumOk] using hcs
  · rw [hres]
    simpa [resCode, hvalid] using checksumOk_iff.1 hcs

/-- Every move keeps the invariant. -/
theorem MoveEffect.inv {s t : State} {m : HostInput} (h : MoveEffect s m t) (hs : s.Inv) : t.Inv := by
  cases h with
  | reset => exact resetStep_inv s
  | idle => exact hs
  | loaded => exact hs
  | summed => exact hs
  | decoded => exact decodeBuffer_inv hs
  | faulted => exact raiseCmdFault_inv hs _

/-- Settles O52, by cases on the effect of the host's move. -/
theorem invariantKeptByEveryStep : Obligations.InvariantKeptByEveryStep := by
  intro s t hs hstep
  obtain ⟨-, rfl⟩ | ⟨m, rest, -, he⟩ := step_cases hstep
  · exact hs
  · exact he.inv hs

/-! ### RES, PPM and PPM_VALID -/

/-- Settles O38, by the three results of a `DEC`; every other command keeps the reading. -/
theorem resWrittenOnlyByDec : Obligations.ResWrittenOnlyByDec := by
  intro s t rst valid cmd rest hs hstep
  have he := moveEffect_of_step hs hstep
  refine ⟨?_, ?_, ?_⟩
  · rintro rfl
    obtain rfl := he.eq_resetStep
    obtain ⟨hres, -⟩ := resetStep_status (s.setInputs rest)
    exact hres
  · rintro rfl hvalid hd
    obtain rfl := he.eq_decodeBuffer ⟨hvalid, hd⟩
    obtain ⟨hh, hres, -⟩ | ⟨hh, hc, hres, -⟩ | ⟨hh, hc, hres, hppm, -⟩ := decodeBuffer_cases (s.setInputs rest)
    · exact .inr (.inl ⟨hres, headerOk_eq_false_iff.1 hh⟩)
    · obtain ⟨h0, h1⟩ := headerOk_iff.1 hh
      exact .inr (.inr ⟨hres, h0, h1, fun heq => Bool.eq_false_iff.1 hc (checksumOk_iff.2 heq)⟩)
    · exact .inl ⟨hres, wellFormedResponse_iff.2 ⟨hh, hc⟩, hppm⟩
  · rintro rfl hn
    obtain ⟨-, -, hres, -, -⟩ := he.sameReading_of_not_dec hn
    exact hres

/-- Settles O39, by what a `DEC` of a well-formed buffer writes and that no other edge writes `PPM`. -/
theorem ppmWrittenOnlyByOkDec : Obligations.PpmWrittenOnlyByOkDec := by
  intro s t valid cmd rest hs hstep
  have he := moveEffect_of_step hs hstep
  refine ⟨?_, fun hn => he.ppm_kept hn⟩
  rintro ⟨hvalid, hd, hwf⟩
  obtain rfl := he.eq_decodeBuffer ⟨hvalid, hd⟩
  obtain ⟨hres, hppm, -⟩ := decodeBuffer_of_wellFormed (s := s.setInputs rest) hwf
  exact ⟨hppm ▸ concentration_toNat s.fb, hres⟩

/-- Settles O40, edge by edge: a reset clears both, and `ppmValid_iff` says what the others do. -/
theorem ppmValidSetByFirstOk : Obligations.PpmValidSetByFirstOk := by
  intro s t rst valid cmd rest hs hstep
  have he := moveEffect_of_step hs hstep
  refine ⟨?_, ?_, he.ppm_zero⟩
  · rintro rfl
    obtain rfl := he.eq_resetStep
    obtain ⟨-, hvalid, -⟩ := resetStep_status (s.setInputs rest)
    exact ⟨hvalid, rfl⟩
  · rintro rfl
    exact he.ppmValid_iff

/-! ### The fault fields -/

/-- A legal index, a legal offset, `DEC` and an edge without a command leave both fault fields (R19). -/
theorem MoveEffect.fault_fields_of_legal {s t : State} {valid : Bool} {cmd : Word}
    (h : MoveEffect s (.edge false valid cmd) t)
    (hl : valid = false ∨ (∃ idx val, decodeWord cmd = .legal (.ldb idx val) ∧ idx.toNat ≤ 8) ∨
      (∃ off, decodeWord cmd = .legal (.csum off) ∧ off.toNat ≤ 2) ∨ decodeWord cmd = .legal .dec) :
    statusErrF t.status = statusErrF s.status ∧ statusErrCode t.status = statusErrCode s.status := by
  cases valid with
  | false =>
    obtain rfl := h.unique (.idle cmd)
    exact ⟨rfl, rfl⟩
  | true =>
    obtain hv | ⟨idx, val, hd, hi⟩ | ⟨off, hd, ho⟩ | hd := hl
    · cases hv
    · obtain rfl := h.unique (.loaded (i := ⟨idx.toNat, by omega⟩) hd rfl)
      exact ⟨rfl, rfl⟩
    · obtain rfl := h.unique (.summed (o := ⟨off.toNat, by omega⟩) hd rfl)
      exact ⟨rfl, rfl⟩
    · obtain rfl := h.unique (.decoded hd)
      obtain ⟨-, -, -, -, -, herr, hcode, -⟩ := decodeBuffer_frame s
      exact ⟨herr, hcode⟩

/-- Settles O41, by the word: the three that raise a fault record it, the others leave both fields. -/
theorem firstFaultIsRecorded : Obligations.FirstFaultIsRecorded := by
  intro s t rst valid cmd rest hs hstep
  have he := moveEffect_of_step hs hstep
  cases rst with
  | true =>
    obtain rfl := he.eq_resetStep
    obtain ⟨-, -, herr, hcode⟩ := resetStep_status (s.setInputs rest)
    exact ⟨fun _ => ⟨herr, hcode⟩, nofun, nofun, fun _ _ => hcode⟩
  | false =>
    refine ⟨nofun, fun _ => he.keeps_fault rfl, fun _ hclean => ⟨?_, ?_, ?_, ?_⟩, fun hcode hclean => ?_⟩
    · rintro rfl hw
      exact he.records_fault (f := .illegalCmd) hclean hw
    · rintro rfl hw
      exact he.records_fault (f := .indexRange) hclean hw
    · rintro rfl hw
      exact he.records_fault (f := .offsetRange) hclean hw
    · intro hl
      obtain ⟨herr, hkept⟩ := he.fault_fields_of_legal hl
      exact ⟨herr.trans hclean, hkept⟩
    · obtain ⟨herr, hkept⟩ | ⟨-, herr⟩ := he.fault_fields rfl
      · exact hkept.trans (hcode (herr.symm.trans hclean))
      · simp [hclean] at herr

/-! ### The checksum registers and the buffer -/

/-- Settles O42: `OK` means a well-formed buffer, whose two checksums are equal. -/
theorem checksumRegistersWrittenOnlyByDec : Obligations.ChecksumRegistersWrittenOnlyByDec := by
  intro s t valid cmd rest hs hstep
  have he := moveEffect_of_step hs hstep
  refine ⟨fun hd => ?_, fun hn => ?_⟩
  · obtain rfl := he.eq_decodeBuffer hd
    obtain ⟨-, -, -, hexp, hact, -⟩ := decodeBuffer_frame (s.setInputs rest)
    refine ⟨hexp, hact, fun hok => ?_⟩
    cases hwf : wellFormedResponse s.fb with
    | false =>
      obtain ⟨hres, -⟩ := decodeBuffer_of_illFormed (s := s.setInputs rest) hwf
      exact absurd hok hres
    | true =>
      obtain ⟨-, hc⟩ := wellFormedResponse_iff.1 hwf
      exact hexp.trans ((checksumOk_iff.1 hc).trans hact.symm)
  · obtain ⟨-, -, -, hexp, hact⟩ := he.sameReading_of_not_dec hn
    exact ⟨hexp, hact⟩

/-- Settles O43, by cases on the effect: only a summed span writes `CSR`. -/
theorem csrWrittenOnlyByCsum : Obligations.CsrWrittenOnlyByCsum := by
  intro s t rst valid cmd rest hs hstep
  have he := moveEffect_of_step hs hstep
  refine ⟨?_, ?_, ?_⟩
  · rintro rfl
    obtain rfl := he.eq_resetStep
    rfl
  · rintro rfl o rfl hd
    have ho : (BitVec.ofNat 4 o.val).toNat = o.val := by
      rw [BitVec.toNat_ofNat]
      omega
    obtain rfl := he.unique (.summed hd ho)
    rfl
  · rintro rfl hn
    cases he with
    | idle => rfl
    | loaded => rfl
    | @summed _ off o hd ho =>
      have hoff : off = BitVec.ofNat 4 o.val := by rw [← ho, BitVec.ofNat_toNat, BitVec.setWidth_eq]
      exact absurd ⟨rfl, hoff ▸ hd⟩ (hn o)
    | decoded =>
      obtain ⟨-, hcsr, -⟩ := decodeBuffer_frame (s.setInputs rest)
      exact hcsr
    | @faulted _ f _ =>
      obtain ⟨-, -, -, -, hcsr, -⟩ := raiseCmdFault_frame f (s.setInputs rest)
      exact hcsr

/-- Settles O44, by cases on the effect: only a load writes the buffer, and only the byte it names. -/
theorem bufferWrittenOnlyByLdb : Obligations.BufferWrittenOnlyByLdb := by
  intro s t valid cmd rest i hs hstep
  cases moveEffect_of_step hs hstep with
  | idle => exact .inl rfl
  | @loaded _ idx val j hd hj =>
    rw [writeByte_read]
    by_cases hij : j = i
    · subst hij
      rw [if_pos rfl]
      exact .inr ⟨rfl, idx, hd, hj⟩
    · rw [if_neg hij]
      exact .inl rfl
  | summed => exact .inl rfl
  | decoded =>
    obtain ⟨hfb, -⟩ := decodeBuffer_frame (s.setInputs rest)
    exact .inl (by rw [hfb]; rfl)
  | @faulted _ f _ =>
    obtain ⟨hfb, -⟩ := raiseCmdFault_frame f (s.setInputs rest)
    exact .inl (by rw [hfb]; rfl)

/-! ### Reset and the STATUS port -/

/-- Settles O10: the buffer a reset leaves has no header, so a `DEC` from there gives `FRAMING_ERROR`. -/
theorem resetStepClearsEverything : Obligations.ResetStepClearsEverything := by
  intro s valid cmd rest hs
  refine ⟨resetStep (s.setInputs rest), step_cons hs, fun i => ?_, rfl, rfl, rfl, rfl, rfl, rfl,
    decodeBuffer (resetStep (s.setInputs rest)), rfl, ?_⟩
  · exact Vector.getElem_replicate i.isLt
  · have hheader : headerOk State.reset.fb = false := by decide
    obtain ⟨hres, -⟩ := decodeBuffer_of_badHeader (s := resetStep (s.setInputs rest)) hheader
    exact hres

/-- With bits 7:6 at 0, `STATUS` is the sum of its fields, each at its place (R15). -/
theorem status_toNat {st : Byte} (h : statusZero st = 0#2) :
    st.toNat = (statusErrCode st).toNat * 16 + (statusErrF st).toNat * 8 + (statusPpmValid st).toNat * 4 +
      (statusRes st).toNat := by
  revert st
  decide

/-- Settles O37: port 0 shows `STATUS`. -/
theorem statusIsItsFields : Obligations.StatusIsItsFields := fun _ hzero => status_toNat hzero

/-! ### What stays over a run -/

/-- Settles O46: what every move without reset keeps is kept along a run of such moves. -/
theorem stickyBitsStay : Obligations.StickyBitsStay := by
  intro k s t hok hrun
  refine ⟨fun hvalid => ?_, fun herr => ?_⟩
  · exact run_invariant (P := fun u => statusPpmValid u.status = true) (fun h hm he => he.keeps_ppmValid hm h) hvalid
      hok hrun
  · exact run_invariant (P := fun u => statusErrF u.status = true ∧ statusErrCode u.status = statusErrCode s.status)
      (fun ⟨h, hcode⟩ hm he =>
        have ⟨h', hcode'⟩ := he.keeps_fault hm h
        ⟨h', hcode'.trans hcode⟩)
      ⟨herr, rfl⟩ hok hrun

/-- Settles O51: a move that is no `DEC` and no reset keeps the reading. -/
theorem readingOutlivesOtherCommands : Obligations.ReadingOutlivesOtherCommands := fun _ s _ hok hrun =>
  run_invariant (P := s.sameReading) (fun h hm he => h.trans (he.sameReading hm.1 hm.2)) (.refl s) hok hrun

/-! ### The buffer cannot be read -/

/-- Whether a command fault is recorded does not depend on the buffer. -/
theorem raiseCmdFault_sameButBuffer {s u : State} (h : s.sameButBuffer u) (f : CmdFault) :
    (raiseCmdFault f s).sameButBuffer (raiseCmdFault f u) := by
  obtain ⟨hstatus, hrest⟩ := id h
  cases hs : statusErrF s.status with
  | false =>
    rw [raiseCmdFault_of_clean f hs, raiseCmdFault_of_clean f (hstatus ▸ hs)]
    exact ⟨by simp [hstatus], hrest⟩
  | true =>
    rw [raiseCmdFault_of_fault f hs, raiseCmdFault_of_fault f (hstatus ▸ hs)]
    exact h

/-- The effect of a move that neither sums nor decodes the buffer depends on it in no other field. -/
theorem MoveEffect.sameButBuffer {s u t v : State} {m : HostInput} (ht : MoveEffect s m t)
    (hsu : s.sameButBuffer u) (hm : m.runs Instr.readsBuffer = false) (hv : MoveEffect u m v) : t.sameButBuffer v := by
  cases ht with
  | reset valid cmd =>
    obtain rfl := hv.eq_resetStep
    obtain ⟨-, -, -, -, -, hin⟩ := hsu
    exact ⟨rfl, rfl, rfl, rfl, rfl, hin⟩
  | idle cmd =>
    obtain rfl := hv.unique (.idle cmd)
    exact hsu
  | loaded hd hi =>
    obtain rfl := hv.unique (.loaded hd hi)
    exact hsu
  | summed hd => simp [HostInput.runs_of_legal hd, Instr.readsBuffer] at hm
  | decoded hd => simp [HostInput.runs_of_legal hd, Instr.readsBuffer] at hm
  | faulted hf =>
    obtain rfl := hv.unique (.faulted hf)
    exact raiseCmdFault_sameButBuffer hsu _

/-- Every port shows a register, none the buffer (R13, R22). -/
theorem State.sameButBuffer.sameOutputs {s t : State} (h : s.sameButBuffer t) : s.sameOutputs t := by
  obtain ⟨hstatus, hppm, hexp, hact, hcsr, -⟩ := h
  intro r
  cases r with
  | status => exact hstatus
  | ppm => exact hppm
  | csExp => exact hexp
  | csAct => exact hact
  | csr => exact hcsr

/-- The two states still differ in the buffer only when both lose the same move. -/
theorem State.sameButBuffer.setInputs {s u : State} (h : s.sameButBuffer u) (l : List HostInput) :
    (s.setInputs l).sameButBuffer (u.setInputs l) := by
  obtain ⟨hstatus, hppm, hexp, hact, hcsr, -⟩ := h
  exact ⟨hstatus, hppm, hexp, hact, hcsr, rfl⟩

/-- Settles O49, in lockstep: the two states differ in the buffer only after every such move. -/
theorem bufferIsNotReadable : Obligations.BufferIsNotReadable := by
  intro k s u t v hsu hok hs hu
  have htv : t.sameButBuffer v :=
    run_lockstep (fun ⟨_, _, _, _, _, hin⟩ => hin) (fun h hm ht hv => ht.sameButBuffer (h.setInputs _) hm hv) hsu hok
      hs hu
  exact htv.sameOutputs

end Sys2Proof.Machine
end

section
/-! PROOFS of the family 20_memory: a buffer byte holds its last load (R37). -/

namespace Sys2Proof.Machine

/-- A move that neither resets nor loads byte `i` keeps it: the one writer left by `bufferWrittenOnlyByLdb` is a load of
`i`. -/
theorem MoveEffect.keeps_byte {s t : State} {m : HostInput} {i : Fin 9} (h : MoveEffect s m t)
    (hr : m.isReset = false) (hl : m.runs (Instr.loads i) = false) : t.fb[i] = s.fb[i] := by
  obtain ⟨_, valid, cmd⟩ := m
  obtain rfl := hr
  have hstep : step (s.setInputs (.edge false valid cmd :: s.inputs)) = .next t :=
    (step_cons rfl).trans h.acceptInput_eq
  obtain hkept | ⟨rfl, idx, hd, hi⟩ := bufferWrittenOnlyByLdb _ t valid cmd s.inputs i rfl hstep
  · exact hkept
  · simp [HostInput.runs_of_legal hd, Instr.loads, hi] at hl

/-- Settles O50: the first step loads the byte, and every allowed move after it keeps the byte. -/
theorem bufferByteHoldsTheLastLoad : Obligations.BufferByteHoldsTheLastLoad := by
  intro k s t i idx v cmd rest hs hd hi hok hrun
  obtain ⟨u, hstep, hrest⟩ := run_succ_cases hrun
  obtain rfl := (moveEffect_of_step hs hstep).unique (.loaded hd hi)
  have hloaded : ((s.setInputs rest).writeByte i v).fb[i] = v := (writeByte_read _ i i v).trans (if_pos rfl)
  exact run_invariant (P := fun u => u.fb[i] = v) (fun hv hm he => (he.keeps_byte hm.1 hm.2).trans hv) hloaded hok hrest

end Sys2Proof.Machine
end

section
/-! PROOFS of the family 30_encoding, first part: the decoder and the encoder (R46 to R50). -/

namespace Sys2Proof.Machine

/-! ### Frames and their instructions -/

/-- Nine bytes with the header `FF 86` select the response row (R49). -/
theorem decodeFrame_of_headerOk {f : Frame} (h : headerOk f = true) :
    decodeFrame f = .legal (.respReadCo2 f[2] f[3] f[4] f[5] f[6] f[7] f[8]) := if_pos h

/-- A response frame decodes to its fields, whatever its byte 8 is. -/
theorem decodeFrame_responseBytes (ppmHi ppmLo r4 r5 r6 r7 cs : Byte) :
    decodeFrame (responseBytes ppmHi ppmLo r4 r5 r6 r7 cs) = .legal (.respReadCo2 ppmHi ppmLo r4 r5 r6 r7 cs) :=
  decodeFrame_of_headerOk rfl

/-- Settles O3, by the instruction: a command's fields are those of its joined word, a frame's are its bytes. -/
theorem decodeOfEncode : Obligations.DecodeOfEncode := by
  intro i
  cases i with
  | ldb idx val =>
    exact decodeWord_eq_ldb.2 ⟨fieldOp_ldbWord idx val, (fieldIdx_ldbWord idx val).symm, (fieldVal_ldbWord idx val).symm⟩
  | csum off =>
    exact decodeWord_eq_csum.2 ⟨fieldOp_csumWord off, fieldVal_csumWord off, (fieldIdx_csumWord off).symm⟩
  | dec => exact decodeWord_eq_dec.2 decWord_eq
  | respReadCo2 ppmHi ppmLo r4 r5 r6 r7 cs => exact decodeFrame_responseBytes ppmHi ppmLo r4 r5 r6 r7 cs
  | reqReadCo2 => decide

/-- A word that decodes to a command is that command's word. -/
theorem encode_of_decodeWord {w : Word} {i : Instr} (h : decodeWord w = .legal i) : encode i = .word w := by
  obtain ⟨idx, val, rfl⟩ | ⟨off, rfl⟩ | rfl := decodeWord_legal h
  · obtain ⟨hop, rfl, rfl⟩ := decodeWord_eq_ldb.1 h
    rw [encode, ldbWord, ← hop, joinFields_fields]
  · obtain ⟨hop, hval, rfl⟩ := decodeWord_eq_csum.1 h
    rw [encode, csumWord, ← hop, ← hval, joinFields_fields]
  · rw [encode, decWord_eq, decodeWord_eq_dec.1 h]

/-- Settles O4, by the kind of code: a word is its three fields joined, a frame its nine bytes. -/
theorem encodeOfDecode : Obligations.EncodeOfDecode := by
  intro c i h
  cases c with
  | word w => exact encode_of_decodeWord h
  | frame f =>
    obtain ⟨rfl, hf⟩ | ⟨rfl, hf⟩ := decodeFrame_legal h <;> exact congrArg Code.frame hf.symm

/-! ### Command words -/

/-- A word selects a row by match and mask (R47). -/
theorem CmdRow.selects_iff {r : CmdRow} {w : Word} : r.selects w = true ↔ w &&& r.mask = r.value := beq_iff_eq

/-- LDB's mask and match hold exactly when `op = 0x1`. -/
theorem ldb_match_iff {w : Word} : w &&& 0xF000#16 = 0x1000#16 ↔ fieldOp w = 0x1#4 :=
  CmdRow.selects_iff.symm.trans rowLdb_selects

/-- CSUM's mask and match hold exactly when `op = 0x2` and `val = 0x00`. -/
theorem csum_match_iff {w : Word} : w &&& 0xF0FF#16 = 0x2000#16 ↔ fieldOp w = 0x2#4 ∧ fieldVal w = 0x00#8 :=
  CmdRow.selects_iff.symm.trans rowCsum_selects

/-- DEC's mask and match hold for the one word 0x3000. -/
theorem dec_match_iff {w : Word} : w &&& 0xFFFF#16 = 0x3000#16 ↔ w = 0x3000#16 :=
  CmdRow.selects_iff.symm.trans rowDec_selects

/-- DEC's word has `op = 0x3`. -/
theorem fieldOp_of_dec_match {w : Word} (h : w &&& 0xFFFF#16 = 0x3000#16) : fieldOp w = 0x3#4 := by
  rw [dec_match_iff.1 h]
  decide

/-- Settles O1: each row's match is a condition on `op` and `val`; `op` tells the rows apart, and the range of `idx`
and `off` is first looked at when the command runs. -/
theorem commandWordSelectsItsRow : Obligations.CommandWordSelectsItsRow := by
  have hldb (w : Word) : w &&& 0xF000#16 = 0x1000#16 ↔ decodeWord w = .legal (.ldb (fieldIdx w) (fieldVal w)) := by
    simp [ldb_match_iff, decodeWord_eq_ldb]
  have hcsum (w : Word) : w &&& 0xF0FF#16 = 0x2000#16 ↔ decodeWord w = .legal (.csum (fieldIdx w)) := by
    simp [csum_match_iff, decodeWord_eq_csum]
  refine ⟨fun w => ⟨hldb w, hcsum w, dec_match_iff.trans decodeWord_eq_dec.symm, ?_, ?_, ?_⟩, fun w s => ⟨?_, ?_⟩⟩
  · rintro ⟨h1, h2⟩
    obtain ⟨hop, -⟩ := csum_match_iff.1 h2
    exact absurd ((ldb_match_iff.1 h1).symm.trans hop) (by decide)
  · rintro ⟨h1, h3⟩
    exact absurd ((ldb_match_iff.1 h1).symm.trans (fieldOp_of_dec_match h3)) (by decide)
  · rintro ⟨h2, h3⟩
    obtain ⟨hop, -⟩ := csum_match_iff.1 h2
    exact absurd (hop.symm.trans (fieldOp_of_dec_match h3)) (by decide)
  · intro h hidx
    exact (runWord_of_legal ((hldb w).1 h) s).trans (execLdb_of_range hidx _ s)
  · intro h hoff
    exact (runWord_of_legal ((hcsum w).1 h) s).trans (execCsum_of_range hoff s)

/-- Settles O2: the three conditions of an illegal word, read off the word's number. -/
theorem illegalWordsAreTheListedOnes : Obligations.IllegalWordsAreTheListedOnes := by
  refine fun w => ⟨?_, fun why h s => runWord_of_illegal h s⟩
  have := w.isLt
  rw [decodeWord_illegal, Ne]
  simp only [← BitVec.toNat_inj, fieldOp_toNat, fieldVal_toNat, BitVec.toNat_ofNat]
  omega

/-- Settles O5, by evaluation of the decoder. -/
theorem listedWordsDecode : Obligations.ListedWordsDecode := by
  unfold Obligations.ListedWordsDecode
  decide

end Sys2Proof.Machine
end

section
/-! PROOFS of the family 30_encoding, second part: a frame as one 72-bit number (R49, D16), and the rows selected by it
(R49, R50, R56). -/

namespace Sys2Proof.Machine

/-! ### Bytes of a frame's number -/

/-- Byte `i` of a 72-bit number's frame is bits `71 - 8i` to `64 - 8i` (R49). -/
theorem frameOfBits_getElem (w : BitVec 72) (i : Fin 9) : (frameOfBits w)[i] = w.extractLsb' (64 - 8 * i.val) 8 :=
  Vector.getElem_ofFn i.isLt

/-- Byte `i` of a frame is bits `71 - 8i` to `64 - 8i` of its number (R49). -/
theorem bitsOfFrame_extract (f : Frame) (i : Fin 9) : f[i] = (bitsOfFrame f).extractLsb' (64 - 8 * i.val) 8 := by
  apply BitVec.eq_of_toNat_eq
  have h0 := f[0].isLt
  have h1 := f[1].isLt
  have h2 := f[2].isLt
  have h3 := f[3].isLt
  have h4 := f[4].isLt
  have h5 := f[5].isLt
  have h6 := f[6].isLt
  have h7 := f[7].isLt
  have h8 := f[8].isLt
  rw [← frameOfBits_getElem, frameOfBits_byte, bitsOfFrame_toNat]
  fin_cases i <;> simp <;> omega

/-- The frame of a frame's number is the frame. -/
theorem frameOfBits_bitsOfFrame (f : Frame) : frameOfBits (bitsOfFrame f) = f :=
  Vector.ext fun i hi => (frameOfBits_getElem _ ⟨i, hi⟩).trans (bitsOfFrame_extract f ⟨i, hi⟩).symm

/-- The number of a number's frame is the number: 72 bits are nine base-256 digits. -/
theorem bitsOfFrame_frameOfBits (w : BitVec 72) : bitsOfFrame (frameOfBits w) = w := by
  apply BitVec.eq_of_toNat_eq
  have hw := w.isLt
  have hbyte (i : Fin 9) := frameOfBits_byte w i
  simp only [Fin.forall_fin_succ] at hbyte
  simp at hbyte
  rw [bitsOfFrame_toNat]
  simp [hbyte]
  omega

/-- Settles O6. -/
theorem frameNumbering : Obligations.FrameNumbering :=
  ⟨bitsOfFrame_frameOfBits, frameOfBits_bitsOfFrame, bitsOfFrame_extract⟩

/-- Frames with one number are one frame. -/
theorem bitsOfFrame_injective : Function.Injective bitsOfFrame := Function.LeftInverse.injective frameOfBits_bitsOfFrame

/-! ### Rows selected by a frame's number -/

/-- A frame's number meets a mask and match exactly when each byte meets its byte of them. -/
theorem bitsOfFrame_and_eq_iff {f : Frame} {mask value : BitVec 72} :
    bitsOfFrame f &&& mask = value ↔ ∀ i : Fin 9, f[i] &&& (frameOfBits mask)[i] = (frameOfBits value)[i] := by
  have hbyte (i : Fin 9) : (frameOfBits (bitsOfFrame f &&& mask))[i] = f[i] &&& (frameOfBits mask)[i] := by
    rw [frameOfBits_getElem, BitVec.extractLsb'_and, ← bitsOfFrame_extract, ← frameOfBits_getElem]
  constructor
  · rintro rfl i
    exact (hbyte i).symm
  · intro h
    refine Function.LeftInverse.injective bitsOfFrame_frameOfBits (Vector.ext fun i hi => ?_)
    exact (hbyte ⟨i, hi⟩).trans (h ⟨i, hi⟩)

/-- The response row's mask and match hold exactly when bytes 0 and 1 are `FF 86` (R49). -/
theorem response_match_iff {f : Frame} :
    bitsOfFrame f &&& 0xFFFF00000000000000#72 = 0xFF8600000000000000#72 ↔ headerOk f = true := by
  have hmask : frameOfBits 0xFFFF00000000000000#72 = #v[0xFF#8, 0xFF#8, 0#8, 0#8, 0#8, 0#8, 0#8, 0#8, 0#8] := by decide
  have hvalue : frameOfBits 0xFF8600000000000000#72 = #v[0xFF#8, 0x86#8, 0#8, 0#8, 0#8, 0#8, 0#8, 0#8, 0#8] := by decide
  have hones (b : Byte) : b &&& 0xFF#8 = b := BitVec.and_allOnes
  rw [bitsOfFrame_and_eq_iff, headerOk_iff, hmask, hvalue]
  simp [Fin.forall_fin_succ, hones]

/-- The request row's number is the request frame's (R50). -/
theorem request_match_iff {f : Frame} : bitsOfFrame f = 0xFF0186000000000079#72 ↔ f = Config.requestFrame := by
  have hreq : bitsOfFrame Config.requestFrame = 0xFF0186000000000079#72 := by decide
  rw [← hreq, bitsOfFrame_injective.eq_iff]

/-- Nine bytes decode to the request exactly when they are its frame (R50). -/
theorem decodeFrame_eq_request {f : Frame} : decodeFrame f = .legal .reqReadCo2 ↔ f = Config.requestFrame := by
  constructor
  · intro h
    obtain ⟨hi, -⟩ | ⟨-, hf⟩ := decodeFrame_legal h
    · cases hi
    · exact hf
  · rintro rfl
    decide

/-- Nine bytes decode to their response frame exactly when they begin `FF 86` (R49). -/
theorem decodeFrame_eq_response {f : Frame} :
    decodeFrame f = .legal (.respReadCo2 f[2] f[3] f[4] f[5] f[6] f[7] f[8]) ↔ headerOk f = true := by
  refine ⟨fun h => ?_, decodeFrame_of_headerOk⟩
  obtain ⟨-, hf⟩ | ⟨hi, -⟩ := decodeFrame_legal h
  · rw [hf]
    rfl
  · cases hi

/-- Nine bytes are rejected exactly when they select neither row (R56). -/
theorem decodeFrame_eq_illegal {f : Frame} :
    decodeFrame f = .illegal .notAFrameRow ↔ headerOk f = false ∧ f ≠ Config.requestFrame := by
  unfold decodeFrame
  split
  · next h => simp [h]
  · next h =>
    split
    · next hr => simp [hr]
    · next hr => simp [h, hr]

/-- Settles O7: the three answers of the decoder, each as a condition on the frame and so on its number. -/
theorem frameRowsSelected : Obligations.FrameRowsSelected := by
  intro f
  refine ⟨response_match_iff.trans decodeFrame_eq_response.symm, request_match_iff.trans decodeFrame_eq_request.symm, ?_⟩
  rw [decodeFrame_eq_illegal, headerOk_eq_false_iff, request_match_iff.ne]

end Sys2Proof.Machine
end

section
/-! PROOFS of the family 30_encoding, third part: the checksum as a number (R65, R66), and the well-formed response
frames, which are the constructed ones (R51, R53, R84). -/

namespace Sys2Proof.Machine

/-! ### The checksum -/

/-- The checksum of the plain sum of a span (R65). -/
theorem checksum_toNat (fb : Frame) (o : Fin 3) : (checksum fb o).toNat = (256 - spanSum fb o % 256) % 256 := by
  rw [checksum_eq, spanSum]
  simp only [BitVec.toNat_neg, BitVec.toNat_add]
  omega

/-- The checksum brings the plain sum of its span to a multiple of 256 (R66). -/
theorem checksum_add_spanSum (fb : Frame) (o : Fin 3) : ((checksum fb o).toNat + spanSum fb o) % 256 = 0 := by
  rw [checksum_toNat]
  omega

/-- The checksum `DEC` computes is that of bytes 1 to 7 (R65). -/
theorem checksum_frame (f : Frame) : checksum f 1 = neg8 (sum8 [f[1], f[2], f[3], f[4], f[5], f[6], f[7]]) :=
  congrArg (fun l => neg8 (sum8 l)) (memRead_span f 1 (by decide))

/-! ### Well-formed and constructed response frames -/

/-- `DEC` answers `OK` exactly on a well-formed buffer (R51). -/
theorem decodeBuffer_ok_iff (s : State) :
    statusRes (decodeBuffer s).status = resCode .ok ↔ wellFormedResponse s.fb = true := by
  constructor
  · intro hok
    by_contra hwf
    obtain ⟨hres, -⟩ := decodeBuffer_of_illFormed (Bool.eq_false_iff.2 hwf)
    exact hres hok
  · intro hwf
    obtain ⟨hres, -⟩ := decodeBuffer_of_wellFormed hwf
    exact hres

/-- The checksum is right exactly when byte 8 is its arithmetic value (R51). -/
theorem checksumOk_iff_toNat {fb : Frame} :
    checksumOk fb = true ↔ fb[8].toNat = (256 - spanSum fb 1 % 256) % 256 := by
  rw [checksumOk_iff, ← BitVec.toNat_inj, checksum_toNat, eq_comm]

/-- Settles O27. -/
theorem okExactlyForWellFormedFrames : Obligations.OkExactlyForWellFormedFrames := by
  refine fun s => ⟨decodeBuffer s, rfl, (decodeBuffer_ok_iff s).trans ?_⟩
  rw [wellFormedResponse_iff, headerOk_iff, checksumOk_iff_toNat, and_assoc]

/-- The constructed frame's byte 8 is its checksum, so it is well formed (R53). -/
theorem wellFormedResponse_encodeResponse (p : BitVec 16) (r4 r5 r6 r7 : Byte) :
    wellFormedResponse (encodeResponse p r4 r5 r6 r7) = true := by
  refine wellFormedResponse_iff.2 ⟨rfl, checksumOk_iff.2 ?_⟩
  rw [checksum_frame]
  rfl

/-- The concentration of a constructed frame is the one it was built from (R53). -/
theorem concentration_encodeResponse (p : BitVec 16) (r4 r5 r6 r7 : Byte) :
    concentration (encodeResponse p r4 r5 r6 r7) = p := by
  apply BitVec.eq_of_toNat_eq
  have := p.isLt
  rw [concentration_toNat]
  simp [encodeResponse, responseBytes, Nat.shiftRight_eq_div_pow]
  omega

/-- The high byte of the concentration is byte 2 (R77). -/
theorem concentration_high (f : Frame) : (concentration f).extractLsb' 8 8 = f[2] := by
  apply BitVec.eq_of_toNat_eq
  have h2 := f[2].isLt
  have h3 := f[3].isLt
  rw [BitVec.extractLsb'_toNat, concentration_toNat, Nat.shiftRight_eq_div_pow]
  omega

/-- The low byte of the concentration is byte 3 (R77). -/
theorem concentration_low (f : Frame) : (concentration f).extractLsb' 0 8 = f[3] := by
  apply BitVec.eq_of_toNat_eq
  have h2 := f[2].isLt
  have h3 := f[3].isLt
  rw [BitVec.extractLsb'_toNat, concentration_toNat, Nat.shiftRight_eq_div_pow]
  omega

/-- A well-formed frame is constructed from its own fields (R53). -/
theorem encodeResponse_of_wellFormed {f : Frame} (h : wellFormedResponse f = true) :
    encodeResponse (concentration f) f[4] f[5] f[6] f[7] = f := by
  obtain ⟨hh, hc⟩ := wellFormedResponse_iff.1 h
  obtain ⟨h0, h1⟩ := headerOk_iff.1 hh
  have h8 : neg8 (sum8 [Config.cmdRead, f[2], f[3], f[4], f[5], f[6], f[7]]) = f[8] := by
    rw [← checksumOk_iff.1 hc, checksum_frame, h1]
  conv_rhs => rw [frame_eq_bytes f, h0, h1]
  simp only [encodeResponse, concentration_high, concentration_low, h8, responseBytes]

/-- Settles O31. -/
theorem decodeInvertsEncodeResponse : Obligations.DecodeInvertsEncodeResponse := by
  refine ⟨fun p r4 r5 r6 r7 s hs => ?_, wellFormedResponse_encodeResponse, fun _ => encodeResponse_of_wellFormed⟩
  have hwf : wellFormedResponse s.fb = true := hs ▸ wellFormedResponse_encodeResponse p r4 r5 r6 r7
  obtain ⟨hres, hppm, hvalid⟩ := decodeBuffer_of_wellFormed hwf
  exact ⟨decodeBuffer s, rfl, hres, hppm.trans (hs ▸ concentration_encodeResponse p r4 r5 r6 r7), hvalid⟩

end Sys2Proof.Machine
end

section
/-! PROOFS of the family 30_encoding, fourth part: the steps of the host's moves that present a code (R45, R48, R55), and
the frames loaded and decoded in ten of them (R57). -/

namespace Sys2Proof.Machine

/-! ### Edges and illegal words -/

/-- Settles O11. -/
theorem idleEdgeChangesNothing : Obligations.IdleEdgeChangesNothing :=
  ⟨fun _ _ _ hs => step_cons hs, fun _ hs => step_nil hs⟩

/-- A command fault writes `STATUS` and nothing else. -/
theorem raiseCmdFault_eq (f : CmdFault) (s : State) :
    raiseCmdFault f s = s.setStatus (raiseCmdFault f s).status := by
  unfold raiseCmdFault
  split <;> rfl

/-- Settles O13, by the fields of `STATUS` after a command fault. -/
theorem illegalWordRaisesIllegalCmd : Obligations.IllegalWordRaisesIllegalCmd := by
  refine ⟨fun s w rest why hs hw => ?_, rfl⟩
  obtain ⟨hzero, hres, hvalid, herr, hcode⟩ := raiseCmdFault_status .illegalCmd (s.setInputs rest)
  refine ⟨_, ?_, hres, hvalid, hzero, herr, hcode⟩
  rw [step_issueWord hs, runWord_of_illegal hw, raiseCmdFault_eq]
  rfl

/-! ### The step that presents a code -/

/-- The first step of a frame's ten starts its `VALIDATE`. -/
theorem step_validateMoves (f : Frame) {s : State} {rest : List HostInput} (hs : s.inputs = validateMoves f ++ rest) :
    step s = startValidate f (s.setInputs rest) := by
  have hmoves : validateMoves f = issueWord (ldbWord 0#4 f[0]) :: (validateMoves f).tail := presentCode_frame f
  rw [hmoves, List.cons_append] at hs
  rw [step_issueWord hs, startValidate_eq]
  exact runWord_ldbWord 0 f[0] _

/-- Settles O8, by the kind of code: a word's move runs it, a frame's first move starts its `VALIDATE`. -/
theorem stepRunsDecodedInstruction : Obligations.StepRunsDecodedInstruction := by
  intro s c rest i hs hi
  cases c with
  | word w => exact (step_issueWord hs).trans (runWord_of_legal hi _)
  | frame f => exact (step_validateMoves f hs).trans (exec_of_decodeFrame hi _).symm

/-- A table word decodes to what its code does. -/
theorem decodeTableWord_eq_some {nbits w : Nat} {i : Instr} :
    decodeTableWord nbits w = some i ↔ ∃ c, codeOfTableWord nbits w = some c ∧ decode c = .legal i := by
  unfold decodeTableWord
  cases hc : codeOfTableWord nbits w with
  | none => simp
  | some c => cases hd : decode c <;> simp [hd]

/-- Settles O9: `withFetchWord` presents the table word's code before the moves already pending. -/
theorem fetchWordRunsTableWord : Obligations.FetchWordRunsTableWord := by
  intro s nbits w i h
  obtain ⟨c, hc, hi⟩ := decodeTableWord_eq_some.1 h
  have hfetch : s.withFetchWord nbits w = presentNext c s := by simp [State.withFetchWord, presentTableWord, hc]
  rw [hfetch]
  exact stepRunsDecodedInstruction _ c s.inputs i rfl hi

/-! ### A frame received and decoded -/

/-- `DEC` writes `STATUS`, `PPM` and the two checksum registers, and nothing else (R78). -/
theorem decodeBuffer_eq (s : State) :
    decodeBuffer s = { s with status := (decodeBuffer s).status, ppm := (decodeBuffer s).ppm,
                              csExp := checksum s.fb 1, csAct := s.fb[8] } := by
  obtain ⟨hfb, hcsr, hin, hexp, hact, -⟩ := decodeBuffer_frame s
  exact State.ext_fields hfb rfl rfl hexp hact hcsr hin

/-- The first step of a frame's `VALIDATE` loads byte 0, and nine steps on `DEC` has run on the loaded frame (R57). -/
theorem startValidate_runs (f : Frame) (s : State) :
    ∃ t : State, startValidate f s = .next t ∧ t = { s with fb := s.fb.set 0 f[0], inputs := t.inputs } ∧
      t.inputs.drop 9 = s.inputs ∧
      Host.Core.run Sys2Proof.core 9 t = .next (decodeBuffer { s with fb := f }) := by
  have hs : (s.setInputs (validateMoves f ++ s.inputs)).inputs = validateMoves f ++ s.inputs := rfl
  refine ⟨_, startValidate_eq f s, rfl, ?_, ?_⟩
  · exact List.drop_left' (by simp [presentCode, validateMoves_length])
  · exact (run_succ ((step_validateMoves f hs).trans (startValidate_eq f s)) 9).symm.trans (run_validate f hs)

/-- Settles O32: the loaded frame has the header, so the two cases of a `DEC` that are left are told apart by its
byte 8. -/
theorem responseFrameIsLoadedAndDecoded : Obligations.ResponseFrameIsLoadedAndDecoded := by
  intro hi lo r4 r5 r6 r7 cs s
  set f := responseBytes hi lo r4 r5 r6 r7 cs with hf
  set u : State := { s with fb := f }
  obtain ⟨t, hstart, ht, hdrop, hrun⟩ := startValidate_runs f s
  obtain ⟨-, -, -, -, -, herr, hcode, hzero⟩ := decodeBuffer_frame u
  have hheader : headerOk u.fb = true := rfl
  refine ⟨t, (decodeBuffer u).status, (decodeBuffer u).ppm, checksum f 1, hstart, ht, hdrop, ?_, ?_, herr, hcode, hzero,
    fun he => ?_, fun he => ?_⟩
  · rw [hrun, decodeBuffer_eq]
    rfl
  · have hsum := checksum_add_spanSum f 1
    simpa [spanSum, responseBytes, hf, Nat.add_assoc] using hsum
  · obtain ⟨hres, hppm, hvalid⟩ := decodeBuffer_of_ok hheader (checksumOk_iff.2 he)
    exact ⟨hres, hppm ▸ concentration_toNat f, hvalid⟩
  · exact decodeBuffer_of_mismatch hheader (Bool.eq_false_iff.2 (mt checksumOk_iff.1 he))

/-- Settles O33: the request frame's byte 1 is no response header, and its span sums to 0x87. -/
theorem requestFrameIsAFramingError : Obligations.RequestFrameIsAFramingError := by
  intro s
  set u : State := { s with fb := Config.requestFrame }
  obtain ⟨t, hstart, ht, hdrop, hrun⟩ := startValidate_runs Config.requestFrame s
  obtain ⟨-, -, -, -, -, herr, hcode, hzero⟩ := decodeBuffer_frame u
  have hheader : headerOk u.fb = false := rfl
  obtain ⟨hres, hppm, hvalid⟩ := decodeBuffer_of_badHeader hheader
  have hsum : checksum Config.requestFrame 1 = 0x79#8 := by decide
  refine ⟨t, (decodeBuffer u).status, hstart, ht, hdrop, ?_, hres, herr, hcode, hzero, hvalid⟩
  rw [hrun, decodeBuffer_eq, hppm, hsum]
  rfl

/-! ### The nine loads in any order -/

/-- Loads that name every index leave the frame in the buffer and change nothing else (R57, R62 (c)). -/
theorem foldl_writeByte_of_forall_mem (f : Frame) {l : List (Fin 9)} (hl : ∀ i, i ∈ l) (s : State) :
    l.foldl (fun (t : State) i => t.writeByte i f[i]) s = { s with fb := f } := by
  rw [foldl_writeByte]
  congr 1
  exact Vector.ext fun k hk => (foldl_writeByte_read f l s ⟨k, hk⟩).trans (if_pos (hl _))

/-- An order of a frame's loads is the loads of an order of the indices. -/
theorem exists_order_of_perm_loadMoves {f : Frame} {order : List HostInput} (h : order.Perm (loadMoves f)) :
    ∃ l : List (Fin 9), l.Perm (List.finRange 9) ∧
      order = l.map (fun i => issueWord (ldbWord (BitVec.ofNat 4 i.val) f[i])) := by
  have hcomp := (List.eq_map_comp_perm fun i : Fin 9 => issueWord (ldbWord (BitVec.ofNat 4 i.val) f[i])).ge _ _ h
  obtain ⟨l, horder, hl⟩ := hcomp
  exact ⟨l, hl, horder⟩

/-- Settles O35: every order of the nine loads names every index. -/
theorem frameLoadsInAnyOrder : Obligations.FrameLoadsInAnyOrder := by
  intro f s rest ms order hms hperm hs
  obtain rfl : loadMoves f = ms := Option.some.inj ((assemble_ldf f).symm.trans hms)
  obtain ⟨l, hl, rfl⟩ := exists_order_of_perm_loadMoves hperm
  have hrun := run_loads f l s rest hs
  rwa [hl.length_eq, List.length_finRange,
    foldl_writeByte_of_forall_mem f fun i => hl.mem_iff.2 (List.mem_finRange i)] at hrun

end Sys2Proof.Machine
end

section
/-! PROOFS of the family 30_encoding, fifth part: the assembler's lines, their words and their operands' ranges (R54,
R57). -/

namespace Sys2Proof.Machine

/-! ### The assembler's words -/

/-- A line with an operand that does not fit its field is rejected (R54). -/
theorem assemble_of_illFormed {l : AsmLine} (h : ¬ l.wellFormed = true) : assemble l = none := if_neg h

/-- A number of 16 bits is the value of its word. -/
theorem toNat_ofNat_of_lt {w : Nat} (h : w < 65536) : (BitVec.ofNat 16 w).toNat = w := by
  rw [BitVec.toNat_ofNat]
  omega

/-- R54's value of an `LDB` line decodes to that command. -/
theorem decodeWord_wordLdb {idx val : Nat} (hi : idx < 16) (hv : val < 256) :
    decodeWord (BitVec.ofNat 16 (wordLdb idx val)) = .legal (.ldb (BitVec.ofNat 4 idx) (BitVec.ofNat 8 val)) := by
  rw [ofNat_wordLdb hi hv]
  exact decodeOfEncode (.ldb _ _)

/-- R54's value of a `CSUM` line decodes to that command. -/
theorem decodeWord_wordCsum {off : Nat} (h : off < 16) :
    decodeWord (BitVec.ofNat 16 (wordCsum off)) = .legal (.csum (BitVec.ofNat 4 off)) := by
  rw [ofNat_wordCsum h]
  exact decodeOfEncode (.csum _)

/-- The operands of an `LDB` line have 4 and 8 bits. -/
theorem ldb_wellFormed_iff {idx val : Nat} : (AsmLine.ldb idx val).wellFormed = true ↔ idx < 16 ∧ val < 256 := by
  simp [AsmLine.wellFormed]

/-- The operand of a `CSUM` line has 4 bits. -/
theorem csum_wellFormed_iff {off : Nat} : (AsmLine.csum off).wellFormed = true ↔ off < 16 := decide_eq_true_iff

/-- The operand of a `.word` line has 16 bits. -/
theorem word_wellFormed_iff {w : Nat} : (AsmLine.word w).wellFormed = true ↔ w < 65536 := decide_eq_true_iff

/-- `LDF` and `VALIDATE` take nine bytes, each below 256 (R57). -/
theorem ldf_wellFormed_iff {bytes : List Nat} :
    (AsmLine.ldf bytes).wellFormed = true ↔ bytes.length = 9 ∧ ∀ b ∈ bytes, b < 256 := by
  simp [AsmLine.wellFormed]

/-- The moves of a well-formed `LDF` are its loads, which `VALIDATE` continues with `DEC` (R57). -/
theorem assemble_frame_lines {bytes : List Nat} (h : (AsmLine.ldf bytes).wellFormed = true) :
    assemble (.ldf bytes) = some (expandLdf bytes) ∧
    assemble (.validate bytes) = some (expandLdf bytes ++ [issueNumber 0x3000]) := ⟨if_pos h, if_pos h⟩

/-- `LDF` issues one load per byte. -/
theorem expandLdf_length (bytes : List Nat) : (expandLdf bytes).length = bytes.length := List.length_mapIdx

/-- The load at place `i` of an `LDF` is that of its byte `i` to index `i` (R57). -/
theorem expandLdf_getElem? {bytes : List Nat} {i : Nat} (h : i < bytes.length) :
    (expandLdf bytes)[i]? = some (issueNumber (wordLdb i bytes[i])) := by
  simp [expandLdf, h]

/-- Settles O36, line by line. -/
theorem assemblerWordsDecode : Obligations.AssemblerWordsDecode := by
  refine ⟨fun idx val => ⟨fun hi hv => ?_, fun h => ?_⟩, fun off => ⟨fun ho => ?_, fun h => ?_⟩, ?_,
    fun w => ⟨fun hw => ?_, fun h => ?_⟩, ⟨_, rfl, rfl⟩, fun bytes => ⟨fun hlen hfit => ?_, fun h => ?_⟩⟩
  · refine ⟨_, if_pos (ldb_wellFormed_iff.2 ⟨hi, hv⟩), toNat_ofNat_of_lt ?_, decodeWord_wordLdb hi hv⟩
    rw [wordLdb]
    omega
  · refine assemble_of_illFormed (mt ldb_wellFormed_iff.1 ?_)
    omega
  · refine ⟨_, if_pos (csum_wellFormed_iff.2 ho), toNat_ofNat_of_lt ?_, decodeWord_wordCsum ho⟩
    rw [wordCsum]
    omega
  · exact assemble_of_illFormed (mt csum_wellFormed_iff.1 h.not_gt)
  · exact ⟨0x3000#16, rfl, rfl, decodeWord_eq_dec.2 rfl⟩
  · exact ⟨_, if_pos (word_wellFormed_iff.2 hw), toNat_ofNat_of_lt hw⟩
  · exact assemble_of_illFormed (mt word_wellFormed_iff.1 h.not_gt)
  · obtain ⟨hldf, hvalidate⟩ := assemble_frame_lines (ldf_wellFormed_iff.2 ⟨hlen, hfit⟩)
    refine ⟨_, hldf, (expandLdf_length bytes).trans hlen, fun i h => ⟨_, expandLdf_getElem? h, ?_⟩, _, hvalidate,
      decodeWord_eq_dec.2 rfl⟩
    exact decodeWord_wordLdb (by omega) (hfit _ (List.getElem_mem h))
  · have hill : ¬ (AsmLine.ldf bytes).wellFormed = true := by
      simpa [ldf_wellFormed_iff, imp_iff_not_or] using h
    exact ⟨assemble_of_illFormed hill, assemble_of_illFormed hill⟩

end Sys2Proof.Machine
end

section
/-! PROOFS of the family 40_buffer_load: what one `LDB` does (R60, R61), and how two of them combine (R62). -/

namespace Sys2Proof.Machine

/-! ### One LDB -/

/-- The state after `LDB idx, val` (R60, R61). -/
def State.loadByte (s : State) (idx : Idx) (val : Byte) : State :=
  match bufferIndex idx with
  | some i => s.writeByte i val
  | none => raiseCmdFault .indexRange s

/-- An index that names a byte: that byte is written (R60). -/
theorem loadByte_of_index {idx : Idx} {i : Fin 9} (h : idx.toNat = i.val) (val : Byte) (s : State) :
    s.loadByte idx val = s.writeByte i val := by simp [State.loadByte, bufferIndex_eq_some.2 h]

/-- An index beyond the buffer: a command fault and no write (R61). -/
theorem loadByte_of_range {idx : Idx} (h : 9 ≤ idx.toNat) (val : Byte) (s : State) :
    s.loadByte idx val = raiseCmdFault .indexRange s := by simp [State.loadByte, bufferIndex_eq_none.2 h]

/-- An index names a buffer byte, which every load of it writes, or is beyond the buffer, and every load of it raises
`INDEX_RANGE`. -/
theorem loadByte_cases (idx : Idx) :
    (∃ i : Fin 9, idx.toNat = i.val ∧ ∀ (val : Byte) (s : State), s.loadByte idx val = s.writeByte i val) ∨
    (9 ≤ idx.toNat ∧ ∀ (val : Byte) (s : State), s.loadByte idx val = raiseCmdFault .indexRange s) := by
  obtain h | h := Nat.lt_or_ge idx.toNat 9
  · exact .inl ⟨⟨idx.toNat, h⟩, rfl, loadByte_of_index rfl⟩
  · exact .inr ⟨h, loadByte_of_range h⟩

/-- `LDB` always completes, in the state after its load. -/
theorem exec_ldb (idx : Idx) (val : Byte) (s : State) : exec (.ldb idx val) s = .next (s.loadByte idx val) := by
  obtain ⟨i, hi, hload⟩ | ⟨hidx, hload⟩ := loadByte_cases idx
  · rw [hload]
    exact execLdb_of_index hi val s
  · rw [hload]
    exact execLdb_of_range hidx val s

/-! ### Buffer writes and command faults together -/

/-- Writes of two different bytes may be exchanged. -/
theorem writeByte_comm {i j : Fin 9} (h : i ≠ j) (v w : Byte) (s : State) :
    (s.writeByte i v).writeByte j w = (s.writeByte j w).writeByte i v :=
  congrArg (fun f => { s with fb := f }) (Vector.set_comm v w (Fin.val_ne_of_ne h))

/-- Of two writes of one byte the later counts. -/
@[simp] theorem writeByte_writeByte (i : Fin 9) (v w : Byte) (s : State) :
    (s.writeByte i v).writeByte i w = s.writeByte i w :=
  congrArg (fun f => { s with fb := f }) (Vector.set_set v i.isLt)

/-- Writing the value a byte holds changes nothing. -/
@[simp] theorem writeByte_self (i : Fin 9) (s : State) : s.writeByte i s.fb[i] = s :=
  congrArg (fun f => { s with fb := f }) (Vector.set_getElem_self i.isLt)

/-- A command fault neither reads nor writes the buffer, so it may be exchanged with a write of it. -/
theorem raiseCmdFault_writeByte (f : CmdFault) (i : Fin 9) (v : Byte) (s : State) :
    raiseCmdFault f (s.writeByte i v) = (raiseCmdFault f s).writeByte i v := by
  cases h : statusErrF s.status with
  | true => rw [raiseCmdFault_of_fault f h, raiseCmdFault_of_fault (s := s.writeByte i v) f h]
  | false =>
    rw [raiseCmdFault_of_clean f h, raiseCmdFault_of_clean (s := s.writeByte i v) f h]
    rfl

/-- A second command fault changes nothing (R96). -/
@[simp] theorem raiseCmdFault_raiseCmdFault (f g : CmdFault) (s : State) :
    raiseCmdFault g (raiseCmdFault f s) = raiseCmdFault f s := by
  obtain ⟨-, -, -, herr, -⟩ := raiseCmdFault_status f s
  exact raiseCmdFault_of_fault g herr

/-! ### Two LDB -/

/-- Loads of different indices may be exchanged: they write different bytes, or one of them only raises a fault. -/
theorem loadByte_comm {a b : Idx} (h : a ≠ b) (v w : Byte) (s : State) :
    (s.loadByte a v).loadByte b w = (s.loadByte b w).loadByte a v := by
  obtain ⟨i, hi, ha⟩ | ⟨-, ha⟩ := loadByte_cases a <;> obtain ⟨j, hj, hb⟩ | ⟨-, hb⟩ := loadByte_cases b <;>
    simp only [ha, hb]
  · have hij : i ≠ j := by
      rintro rfl
      exact h (BitVec.eq_of_toNat_eq (hi.trans hj.symm))
    exact writeByte_comm hij v w s
  · exact raiseCmdFault_writeByte _ i v s
  · exact (raiseCmdFault_writeByte _ j w s).symm

/-- Of two loads of one index the later counts. -/
theorem loadByte_loadByte (a : Idx) (v w : Byte) (s : State) : (s.loadByte a v).loadByte a w = s.loadByte a w := by
  obtain ⟨i, -, ha⟩ | ⟨-, ha⟩ := loadByte_cases a
  · rw [ha, ha, ha, writeByte_writeByte]
  · rw [ha, ha, ha, raiseCmdFault_raiseCmdFault]

/-- Settles O16, clause by clause from the loads' states. -/
theorem ldbOrderDoesNotMatter : Obligations.LdbOrderDoesNotMatter := by
  refine ⟨fun a b v w s t u hab ht hu => ?_, fun a v w s t ht => ?_, fun a s i hi => ?_⟩
  · cases (exec_ldb a v s).symm.trans ht
    cases (exec_ldb b w s).symm.trans hu
    rw [exec_ldb, exec_ldb, loadByte_comm hab]
  · cases (exec_ldb a v s).symm.trans ht
    rw [exec_ldb, exec_ldb, loadByte_loadByte]
  · rw [exec_ldb, loadByte_of_index hi, writeByte_self]

/-! ### The word, the byte written and the index fault -/

/-- Settles O14: the byte by what a read after a buffer write returns, the word by R54's value of an `LDB` line. -/
theorem ldbWritesOneByte : Obligations.LdbWritesOneByte := by
  refine fun idx val s => ⟨fun i hi => ?_, fun h => execLdb_of_range h val s, ?_, rfl⟩
  · refine ⟨_, execLdb_of_index hi val s, ?_, fun j hj => ?_⟩
    · exact (writeByte_read s i i val).trans (if_pos rfl)
    · exact (writeByte_read s i j val).trans (if_neg hj.symm)
  · have h := decodeWord_wordLdb idx.isLt val.isLt
    rwa [BitVec.ofNat_toNat, BitVec.ofNat_toNat, BitVec.setWidth_eq, BitVec.setWidth_eq] at h

/-- Settles O15, by the fields of `STATUS` after a command fault. -/
theorem ldbIndexRangeFault : Obligations.LdbIndexRangeFault := by
  refine ⟨fun idx val s hidx => ?_, rfl⟩
  have hrun := fun v => execLdb_of_range hidx v s
  refine ⟨fun hfault => ?_, fun hclean => ?_, fun other => (hrun other).trans (hrun val).symm⟩
  · exact (hrun val).trans (congrArg _ (raiseCmdFault_of_fault _ hfault))
  · obtain ⟨hzero, hres, hvalid, herr, hcode⟩ := raiseCmdFault_status .indexRange s
    refine ⟨_, (hrun val).trans (congrArg _ (raiseCmdFault_eq _ s)), herr, ?_, hres, hvalid, hzero⟩
    rw [hcode, hclean]
    rfl

end Sys2Proof.Machine
end

section
/-! PROOFS of the family 41_checksum, first part: the checksum function (R65, R66), and what a change or an exchange of
the bytes of a span does to it (R70). -/

namespace Sys2Proof.Machine

/-! ### The checksum law -/

/-- The 8-bit sum of a list is its plain sum modulo 256 (R66). -/
theorem sum8_eq_ofNat_sum (l : List Byte) : sum8 l = BitVec.ofNat 8 (l.map BitVec.toNat).sum := by
  rw [sum8_eq]
  induction l with
  | nil => rfl
  | cons b l ih =>
    rw [List.sum_cons, List.map_cons, List.sum_cons, BitVec.ofNat_add, BitVec.ofNat_toNat, BitVec.setWidth_eq, ih]

/-- The negated sum is the one byte that brings the plain sum to a multiple of 256 (R66). -/
theorem eq_neg8_sum8_iff {c : Byte} {l : List Byte} :
    c = neg8 (sum8 l) ↔ (c.toNat + (l.map BitVec.toNat).sum) % 256 = 0 := by
  have := c.isLt
  rw [neg8_eq, sum8_eq_ofNat_sum, ← BitVec.toNat_inj, BitVec.toNat_neg, BitVec.toNat_ofNat]
  omega

/-- A byte is at most 255, so the plain sum of a list is bounded by its length (R66). -/
theorem sum_map_toNat_le (l : List Byte) : (l.map BitVec.toNat).sum ≤ l.length * 255 := by
  have hbyte : ∀ n ∈ l.map BitVec.toNat, n ≤ 255 := by
    intro n hn
    obtain ⟨b, -, rfl⟩ := List.mem_map.1 hn
    exact Nat.le_of_lt_succ b.isLt
  simpa using List.sum_le_card_nsmul _ _ hbyte

/-- The plain sum of a span is that of its bytes as a list. -/
theorem sum_memRead_span (fb : Frame) (o : Fin 3) (h : o.val + 7 ≤ 9) :
    ((memRead fb o.val 7 h).map BitVec.toNat).sum = spanSum fb o := by
  rw [memRead_span]
  simp [spanSum, Nat.add_assoc]

/-- A byte is the checksum of a span exactly when it brings the span's plain sum to a multiple of 256 (R66). -/
theorem eq_checksum_iff {c : Byte} {fb : Frame} {o : Fin 3} :
    c = checksum fb o ↔ (spanSum fb o + c.toNat) % 256 = 0 := by
  rw [checksum, eq_neg8_sum8_iff, sum_memRead_span, Nat.add_comm]

/-- Settles O18, by `eq_neg8_sum8_iff` for seven bytes and `eq_checksum_iff` for byte 8. -/
theorem checksumLaw : Obligations.ChecksumLaw := by
  refine ⟨fun l hl => ⟨eq_neg8_sum8_iff.1 rfl, ?_, fun c => eq_neg8_sum8_iff.2⟩, fun fb o => ?_, fun fb => ?_⟩
  · simpa [hl] using sum_map_toNat_le l
  · exact ⟨_, List.length_ofFn, sum_memRead_span fb o (by omega), rfl⟩
  · rw [eq_comm, eq_checksum_iff]

/-! ### The three forms -/

/-- The checksum of a span is the 8-bit negation of its plain sum (R65). -/
theorem checksum_eq_neg_ofNat (fb : Frame) (o : Fin 3) : checksum fb o = -BitVec.ofNat 8 (spanSum fb o) := by
  rw [checksum, neg8_eq, sum8_eq_ofNat_sum, sum_memRead_span]

/-- Settles O17: a negation is the complement, which is the XOR with 0xFF, plus 1. -/
theorem checksumHasThreeForms : Obligations.ChecksumHasThreeForms := by
  refine fun fb o => ⟨checksum_toNat fb o, ?_, ?_⟩
  · apply BitVec.eq_of_toNat_eq
    rw [checksum_toNat]
    simp only [BitVec.toNat_setWidth, BitVec.toNat_sub, BitVec.toNat_ofNat]
    omega
  · have hones : (0xFF#8 : Byte) = BitVec.allOnes 8 := rfl
    rw [checksum_eq_neg_ofNat, BitVec.neg_eq_not_add, hones, BitVec.xor_allOnes]

/-! ### A change of one byte -/

/-- A write below a span leaves its bytes. -/
theorem memRead_set_of_lt (fb : Frame) {i : Fin 9} (v : Byte) {o n : Nat} (h : o + n ≤ 9) (hi : i.val < o) :
    memRead (fb.set i v) o n h = memRead fb o n h := by
  simp [memRead, show ∀ k, i.val ≠ o + k by omega]

/-- A write in a span, or above it, writes the place of its list that the byte has, if any. -/
theorem memRead_set_of_le (fb : Frame) {i : Fin 9} (v : Byte) {o n : Nat} (h : o + n ≤ 9) (hi : o ≤ i.val) :
    memRead (fb.set i v) o n h = (memRead fb o n h).set (i.val - o) v := by
  refine List.ext_getElem (by simp [memRead]) fun k _ _ => ?_
  simp [memRead, Vector.getElem_set, List.getElem_set, Nat.sub_eq_iff_eq_add' hi]

/-- A byte outside the span of bytes 1 to 7 does not enter its checksum (R70 (c)). -/
theorem checksum_set_outside (fb : Frame) {i : Fin 9} (v : Byte) (hi : i.val = 0 ∨ i.val = 8) :
    checksum (fb.set i v) 1 = checksum fb 1 := by
  unfold checksum
  obtain h0 | h8 := hi
  · rw [memRead_set_of_lt fb v _ (by simp [h0])]
  · rw [memRead_set_of_le fb v _ (by simp [h8]), List.set_eq_of_length_le (by simp [memRead, h8])]

/-- A change of one byte of a list changes its sum by the difference (R70 (a)). -/
theorem sum8_set {l : List Byte} {k : Nat} (h : k < l.length) (v : Byte) :
    sum8 (l.set k v) = sum8 l + (v - l[k]) := by
  rw [sum8_eq, sum8_eq, List.sum_set', dif_pos h, neg_add_eq_sub]

/-- A change of a byte of the span lowers the checksum by the difference (R70 (a)). -/
theorem checksum_set_inside (fb : Frame) {i : Fin 9} (v : Byte) (hi : 1 ≤ i.val ∧ i.val ≤ 7) :
    checksum (fb.set i v) 1 = checksum fb 1 - (v - fb[i]) := by
  obtain ⟨hlo, hhi⟩ := hi
  have hplace : i.val - 1 < (memRead fb 1 7 (by decide)).length := by
    rw [memRead, List.length_ofFn]
    omega
  have hold : (memRead fb 1 7 (by decide))[i.val - 1] = fb[i] := by
    simp only [memRead, List.getElem_ofFn, Nat.add_sub_cancel' hlo, Fin.getElem_fin]
  calc checksum (fb.set i v) 1
    _ = neg8 (sum8 ((memRead fb 1 7 (by decide)).set (i.val - 1) v)) :=
      congrArg (fun l => neg8 (sum8 l)) (memRead_set_of_le fb v (by decide) hlo)
    _ = neg8 (sum8 (memRead fb 1 7 (by decide))) - (v - fb[i]) := by
      rw [sum8_set hplace, hold, neg8_eq, neg8_eq, neg_add']

/-- Settles O19: a difference that is not 0 changes the checksum. -/
theorem checksumSeesEveryByteOfItsSpan : Obligations.ChecksumSeesEveryByteOfItsSpan := by
  refine fun fb i v => ⟨fun hi => ⟨checksum_set_inside fb v hi, fun hv => ?_⟩, checksum_set_outside fb v⟩
  rwa [checksum_set_inside fb v hi, Ne, sub_eq_self, sub_eq_zero]

/-! ### An exchange of bytes -/

/-- The checksum of a list does not depend on the order of its bytes (R70 (b)). -/
theorem neg8_sum8_perm {l m : List Byte} (h : l.Perm m) : neg8 (sum8 l) = neg8 (sum8 m) := by
  rw [sum8_eq, sum8_eq, h.sum_eq]

/-- The frame with the two bytes of its concentration exchanged. -/
def swapConcentration (f : Frame) : Frame := (f.set 2 f[3]).set 3 f[2]

/-- The bytes of the frame with the concentration's bytes exchanged. -/
theorem swapConcentration_eq (f : Frame) :
    swapConcentration f = #v[f[0], f[1], f[3], f[2], f[4], f[5], f[6], f[7], f[8]] := by
  rw [frame_eq_bytes (swapConcentration f)]
  simp [swapConcentration]

/-- The exchange leaves the checksum of bytes 1 to 7 (R70 (b)). -/
theorem checksum_swapConcentration (f : Frame) : checksum (swapConcentration f) 1 = checksum f 1 := by
  rw [checksum_frame, checksum_frame, swapConcentration_eq]
  exact neg8_sum8_perm ((List.Perm.swap _ _ _).cons _)

/-- Settles O20: the exchange leaves the header, byte 8 and the checksum. -/
theorem checksumBlindToOrder : Obligations.ChecksumBlindToOrder := by
  refine ⟨fun l m => neg8_sum8_perm, fun f hf => ?_⟩
  obtain ⟨hheader, hsum⟩ := wellFormedResponse_iff.1 hf
  change wellFormedResponse (swapConcentration f) = true ∧ (concentration (swapConcentration f)).toNat = _
  rw [concentration_toNat, wellFormedResponse_iff, checksumOk_iff, checksum_swapConcentration, swapConcentration_eq]
  exact ⟨⟨hheader, checksumOk_iff.1 hsum⟩, rfl⟩

end Sys2Proof.Machine
end

section
/-! PROOFS of the family 41_checksum, second part: what `CSUM` writes (R68), its offset fault (R69), and its agreement
with `DEC` (R71). -/

namespace Sys2Proof.Machine

/-! ### CSUM with an offset of a span -/

/-- `CSUM` writes `CSR` with the checksum of the span its offset names, and nothing else (R68). -/
theorem exec_csum_of_offset {off : Idx} {o : Fin 3} (h : off.toNat = o.val) (s : State) :
    exec (.csum off) s = .next { s with csr := checksum s.fb o } := execCsum_of_offset h s

/-- A `CSUM` that completes with a legal offset has written `CSR` and nothing else. -/
theorem eq_of_exec_csum {off : Idx} {o : Fin 3} (h : off.toNat = o.val) {s t : State}
    (ht : exec (.csum off) s = .next t) : t = { s with csr := checksum s.fb o } := by
  cases (exec_csum_of_offset h s).symm.trans ht
  rfl

/-- A word of `op` 0x2 with a `val` that is not 0x00 is illegal (R48). -/
theorem decodeWord_csum_val_illegal (off : Idx) {val : Byte} (h : val ≠ 0x00#8) :
    ∃ why, decodeWord (joinFields 0x2#4 off val) = .illegal why := by
  have hdec : joinFields 0x2#4 off val ≠ 0x3000#16 := mt rowDec_selects.2 (Laws.not_rowDec_of_op (by simp))
  simp [decodeWord_illegal, h, hdec]

/-- The three checksums of the request frame (R68). -/
theorem checksum_requestFrame : checksum Config.requestFrame 1 = 0x79#8 ∧
    checksum Config.requestFrame 0 = 0x7A#8 ∧ checksum Config.requestFrame 2 = 0x01#8 := by decide

/-- Settles O21: the written value by `checksum_toNat`, the word by R54's value of a `CSUM` line. -/
theorem csumWritesCsr : Obligations.CsumWritesCsr := by
  refine ⟨fun off s => ⟨fun o ho => ?_, fun h => execCsum_of_range h s, ?_, fun val hval => ?_⟩, fun s hs => ?_⟩
  · exact ⟨_, exec_csum_of_offset ho s, checksum_toNat s.fb o⟩
  · simpa [wordCsum] using decodeWord_wordCsum off.isLt
  · exact decodeWord_csum_val_illegal off hval
  · obtain ⟨hone, hzero, htwo⟩ := checksum_requestFrame
    rw [← hone, ← hzero, ← htwo, ← hs]
    exact ⟨exec_csum_of_offset rfl s, exec_csum_of_offset rfl s, exec_csum_of_offset rfl s⟩

/-! ### The offset fault -/

/-- Settles O22, by the fields of `STATUS` after a command fault. -/
theorem csumOffsetRangeFault : Obligations.CsumOffsetRangeFault := by
  refine ⟨fun off s hoff => ?_, rfl⟩
  have hrun : exec (.csum off) s = .next (raiseCmdFault .offsetRange s) := execCsum_of_range hoff s
  refine ⟨fun hfault => ?_, fun hclean => ?_⟩
  · rw [hrun, raiseCmdFault_of_fault _ hfault]
  · rw [hrun, raiseCmdFault_of_clean _ hclean]
    exact ⟨_, rfl, by simp [faultCode]⟩

/-! ### CSUM and DEC -/

/-- The checksum of an all-zero span is 0x00 (R71 (a)). -/
theorem checksum_replicate_zero (o : Fin 3) : checksum (Vector.replicate 9 0x00#8) o = 0x00#8 := by
  revert o
  decide

/-- An offset of at most 2 names a span. -/
theorem exists_span_of_offset {off : Idx} (h : off.toNat ≤ 2) : ∃ o : Fin 3, off.toNat = o.val :=
  ⟨⟨off.toNat, Nat.lt_succ_of_le h⟩, rfl⟩

/-- Settles O23: both commands apply one function to the buffer, which `CSUM` leaves as it is. -/
theorem csumAgreesWithDec : Obligations.CsumAgreesWithDec := by
  refine ⟨fun off s hoff hs => ?_, fun off s u t v hfb hoff ht hv => ?_, fun s t u ht hu => ?_⟩
  · obtain ⟨o, ho⟩ := exists_span_of_offset hoff
    rw [exec_csum_of_offset ho, hs, checksum_replicate_zero]
  · obtain ⟨o, ho⟩ := exists_span_of_offset hoff
    rw [eq_of_exec_csum ho ht, eq_of_exec_csum ho hv, hfb]
  · obtain rfl := eq_of_exec_csum (off := 1#4) (o := 1) rfl ht
    cases hu
    obtain ⟨-, hcsr, -, hexp, -⟩ := decodeBuffer_frame { s with csr := checksum s.fb 1 }
    rw [hcsr, hexp]

end Sys2Proof.Machine
end

section
/-! PROOFS of the family 42_frame_decode: the result of `DEC` as a function of the buffer (R78 to R81), the
concentration (R77), and a well-formed frame with one byte changed (R82). -/

namespace Sys2Proof.Machine

/-! ### What DEC writes, as a function of the buffer -/

/-- `DEC` always completes, in the state with the buffer decoded. -/
theorem exec_dec (s : State) : exec .dec s = .next (decodeBuffer s) := rfl

/-- The result `DEC` gives for a buffer: the header is checked first, the checksum second (R79). -/
def decodeResult (fb : Frame) : DecResult :=
  if headerOk fb = false then .framingError
  else if checksumOk fb = false then .checksumMismatch
  else .ok

/-- The result is `FRAMING_ERROR` exactly for a wrong header. -/
theorem decodeResult_eq_framingError_iff {fb : Frame} : decodeResult fb = .framingError ↔ headerOk fb = false := by
  unfold decodeResult
  split
  · next hh => simp [hh]
  · next hh => split <;> simp [hh]

/-- The result is `CHECKSUM_MISMATCH` exactly for a wrong checksum behind a correct header. -/
theorem decodeResult_eq_checksumMismatch_iff {fb : Frame} :
    decodeResult fb = .checksumMismatch ↔ headerOk fb = true ∧ checksumOk fb = false := by
  unfold decodeResult
  split
  · next hh => simp [hh]
  · next hh => split <;> simp_all

/-- `DEC` writes the buffer's result to `RES`. -/
theorem statusRes_decodeBuffer (s : State) :
    statusRes (decodeBuffer s).status = resCode (decodeResult s.fb) := by
  obtain ⟨hh, hres, -⟩ | ⟨hh, hc, hres, -⟩ | ⟨hh, hc, hres, -⟩ := decodeBuffer_cases s
  · rw [hres, decodeResult_eq_framingError_iff.2 hh]
  · rw [hres, decodeResult_eq_checksumMismatch_iff.2 ⟨hh, hc⟩]
  · simp [hres, decodeResult, hh, hc]

/-- Different results have different numbers in `RES` (R16). -/
theorem resCode_inj {a b : DecResult} : resCode a = resCode b ↔ a = b := by
  cases a <;> cases b <;> decide

/-- `PPM` takes the concentration of a well-formed buffer and keeps its value for any other. -/
theorem decodeBuffer_ppm (s : State) :
    (decodeBuffer s).ppm = if wellFormedResponse s.fb then concentration s.fb else s.ppm := by
  split
  · next hwf =>
    obtain ⟨-, hppm, -⟩ := decodeBuffer_of_wellFormed hwf
    exact hppm
  · next hwf =>
    obtain ⟨-, hppm, -⟩ := decodeBuffer_of_illFormed (Bool.eq_false_iff.2 hwf)
    exact hppm

/-- `PPM_VALID` is set by a well-formed buffer and keeps its value for any other. -/
theorem statusPpmValid_decodeBuffer (s : State) :
    statusPpmValid (decodeBuffer s).status = if wellFormedResponse s.fb then true else statusPpmValid s.status := by
  split
  · next hwf =>
    obtain ⟨-, -, hvalid⟩ := decodeBuffer_of_wellFormed hwf
    exact hvalid
  · next hwf =>
    obtain ⟨-, -, hvalid⟩ := decodeBuffer_of_illFormed (Bool.eq_false_iff.2 hwf)
    exact hvalid

/-! ### DEC's three cases and its encoding -/

/-- The `op` field of four bits before twelve others. -/
@[simp] theorem fieldOp_append (op : BitVec 4) (low : BitVec 12) : fieldOp (op ++ low) = op :=
  BitVec.extractLsb'_append_eq_left

/-- A word of `op` 0x3 is `DEC`'s exactly when its low twelve bits are 0 (R47). -/
theorem append_eq_decWord_iff {low : BitVec 12} : 0x3#4 ++ low = 0x3000#16 ↔ low = 0#12 := by
  have hword : (0x3000#16 : Word) = 0x3#4 ++ 0#12 := rfl
  rw [hword, BitVec.append_right_inj]

/-- Settles O24: the three cases are those of `decodeBuffer`; of the words of `op` 0x3 only `DEC`'s selects a row. -/
theorem decWritesItsResult : Obligations.DecWritesItsResult := by
  refine ⟨fun s => ?_, fun low => ?_, fun s hs => ?_⟩
  · obtain ⟨-, -, -, -, -, herr, hcode, hzero⟩ := decodeBuffer_frame s
    refine ⟨_, _, congrArg _ (decodeBuffer_eq s), herr, hcode, hzero, fun hh => ?_, fun h0 h1 hc => ?_,
      fun h0 h1 hc => ?_⟩
    · exact decodeBuffer_of_badHeader (headerOk_eq_false_iff.2 hh)
    · exact decodeBuffer_of_mismatch (headerOk_iff.2 ⟨h0, h1⟩) (Bool.eq_false_iff.2 (mt checksumOk_iff.1 hc))
    · obtain ⟨hres, hppm, hvalid⟩ := decodeBuffer_of_ok (headerOk_iff.2 ⟨h0, h1⟩) (checksumOk_iff.2 hc)
      exact ⟨hres, hppm ▸ concentration_toNat s.fb, hvalid⟩
  · rw [decodeWord_eq_dec, append_eq_decWord_iff]
    refine ⟨Iff.rfl, fun hlow => decodeWord_illegal.2 ?_⟩
    simp [append_eq_decWord_iff, hlow]
  · obtain ⟨hres, hppm, hvalid⟩ := decodeBuffer_of_wellFormed (s := s) (by rw [hs]; decide)
    refine ⟨_, ?_, hres, hvalid⟩
    rw [exec_dec, decodeBuffer_eq, hppm, hs]
    rfl

/-- Settles O25: `RES` is the number of `decodeResult`, and both `PPM` and `PPM_VALID` stay for an ill-formed buffer. -/
theorem headerCheckedBeforeChecksum : Obligations.HeaderCheckedBeforeChecksum := by
  refine fun s => ⟨decodeBuffer s, rfl, ?_, fun hres => ?_, fun hchange => ?_⟩
  · rw [statusRes_decodeBuffer, ← headerOk_iff, Bool.not_eq_true, ← decodeResult_eq_framingError_iff]
    exact resCode_inj (b := .framingError)
  · rw [statusRes_decodeBuffer] at hres
    obtain ⟨hh, -⟩ := decodeResult_eq_checksumMismatch_iff.1 (resCode_inj.1 hres)
    exact headerOk_iff.1 hh
  · have hwf : wellFormedResponse s.fb = true := by
      by_contra hn
      obtain ⟨-, hppm, hvalid⟩ := decodeBuffer_of_illFormed (Bool.eq_false_iff.2 hn)
      exact hchange.elim (· hppm) (· hvalid)
    obtain ⟨hh, hc⟩ := wellFormedResponse_iff.1 hwf
    obtain ⟨h0, h1⟩ := headerOk_iff.1 hh
    exact ⟨h0, h1, eq_checksum_iff.1 (checksumOk_iff.1 hc).symm⟩

/-- Settles O26: the constructed frame of a value is decoded to it, whatever bytes 4 to 7 are. -/
theorem concentrationIsBigEndian : Obligations.ConcentrationIsBigEndian := by
  refine ⟨fun s h0 h1 hc => ⟨_, rfl, ?_⟩, fun p r4 r5 r6 r7 s => ?_⟩
  · obtain ⟨-, hppm, -⟩ := decodeBuffer_of_ok (headerOk_iff.2 ⟨h0, h1⟩) (checksumOk_iff.2 hc)
    rw [hppm, concentration_toNat]
  · obtain ⟨hdecode, -⟩ := decodeInvertsEncodeResponse
    obtain ⟨t, ht, -, hppm, -⟩ := hdecode p r4 r5 r6 r7 { s with fb := encodeResponse p r4 r5 r6 r7 } rfl
    exact ⟨_, t, ht, hppm⟩

/-! ### DEC twice, and DEC from two states -/

/-- Decoding a second time changes nothing (R81). -/
@[simp] theorem decodeBuffer_decodeBuffer (s : State) : decodeBuffer (decodeBuffer s) = decodeBuffer s := by
  obtain ⟨hfb, -, -, hexp, hact, -⟩ := decodeBuffer_frame s
  obtain ⟨hfb', hcsr', hin', hexp', hact', herr', hcode', hzero'⟩ := decodeBuffer_frame (decodeBuffer s)
  refine State.ext_fields hfb' (status_ext hzero' hcode' herr' ?_ ?_) ?_ ?_ ?_ hcsr' hin'
  · rw [statusPpmValid_decodeBuffer, hfb, statusPpmValid_decodeBuffer]
    split <;> rfl
  · rw [statusRes_decodeBuffer, statusRes_decodeBuffer, hfb]
  · rw [decodeBuffer_ppm, hfb, decodeBuffer_ppm]
    split <;> rfl
  · rw [hexp', hexp, hfb]
  · rw [hact', hact, hfb]

/-- Settles O28. -/
theorem decRepeatedChangesNothing : Obligations.DecRepeatedChangesNothing := by
  intro s t ht
  obtain rfl : decodeBuffer s = t := Host.Outcome.next.inj ht
  rw [exec_dec, decodeBuffer_decodeBuffer]

/-- Settles O29: each written value is a function of the buffer; `PPM` is written when the result is `OK`. -/
theorem decDependsOnBufferAlone : Obligations.DecDependsOnBufferAlone := by
  intro s u t v hfb ht hv
  obtain rfl : decodeBuffer s = t := Host.Outcome.next.inj ht
  obtain rfl : decodeBuffer u = v := Host.Outcome.next.inj hv
  obtain ⟨-, -, -, hexp, hact, -⟩ := decodeBuffer_frame s
  obtain ⟨-, -, -, hexp', hact', -⟩ := decodeBuffer_frame u
  refine ⟨?_, ?_, ?_, fun hok => ?_⟩
  · rw [statusRes_decodeBuffer, statusRes_decodeBuffer, hfb]
  · rw [hexp, hexp', hfb]
  · rw [hact, hact', hfb]
  · have hwf : wellFormedResponse s.fb = true := (decodeBuffer_ok_iff s).1 hok
    rw [decodeBuffer_ppm, decodeBuffer_ppm, ← hfb, if_pos hwf, if_pos hwf]

/-! ### One byte changed -/

/-- A byte of the header that is changed makes the header wrong. -/
theorem headerOk_set_of_le_one {f : Frame} {i : Fin 9} {v : Byte} (h : headerOk f = true) (hv : v ≠ f[i])
    (hi : i.val ≤ 1) : headerOk (f.set i v) = false := by
  obtain ⟨h0, h1⟩ := headerOk_iff.1 h
  rw [headerOk_eq_false_iff]
  obtain rfl | rfl : i = 0 ∨ i = 1 := by omega
  · exact .inl (by simpa [h0] using hv)
  · exact .inr (by simpa [h1] using hv)

/-- A change behind the header leaves it. -/
theorem headerOk_set_of_two_le (f : Frame) {i : Fin 9} (v : Byte) (hi : 2 ≤ i.val) :
    headerOk (f.set i v) = headerOk f := by
  have h0 : (f.set i v)[0] = f[0] := Vector.getElem_set_ne _ _ (by omega)
  have h1 : (f.set i v)[1] = f[1] := Vector.getElem_set_ne _ _ (by omega)
  rw [headerOk, headerOk, h0, h1]

/-- A change before byte 8 leaves it. -/
theorem getElem_eight_set (f : Frame) {i : Fin 9} (v : Byte) (hi : i.val ≤ 7) : (f.set i v)[8] = f[8] :=
  Vector.getElem_set_ne _ _ (by omega)

/-- A change of a byte of the span changes its checksum (R70 (a)). -/
theorem checksum_set_ne {f : Frame} {i : Fin 9} {v : Byte} (hi : 1 ≤ i.val ∧ i.val ≤ 7) (hv : v ≠ f[i]) :
    checksum (f.set i v) 1 ≠ checksum f 1 := by
  obtain ⟨hspan, -⟩ := checksumSeesEveryByteOfItsSpan f i v
  obtain ⟨-, hne⟩ := hspan hi
  exact hne hv

/-- A byte behind byte 0 that is changed makes the checksum wrong: it changes the checksum or byte 8, never both. -/
theorem checksumOk_set {f : Frame} {i : Fin 9} {v : Byte} (h : checksumOk f = true) (hv : v ≠ f[i])
    (hi : 1 ≤ i.val) : checksumOk (f.set i v) = false := by
  have hsum := checksumOk_iff.1 h
  rw [← Bool.not_eq_true, checksumOk_iff]
  obtain h7 | rfl : i.val ≤ 7 ∨ i = 8 := by omega
  · rw [getElem_eight_set f v h7, ← hsum]
    exact checksum_set_ne ⟨hi, h7⟩ hv
  · rw [checksum_set_outside f v (.inr rfl), hsum]
    simpa using hv.symm

/-- What a well-formed frame with byte `i` changed is taken for: its header is wrong, or else its checksum (R82). -/
theorem decodeResult_set {f : Frame} {i : Fin 9} {v : Byte} (h : wellFormedResponse f = true) (hv : v ≠ f[i]) :
    decodeResult (f.set i v) = if i.val ≤ 1 then .framingError else .checksumMismatch := by
  obtain ⟨hh, hc⟩ := wellFormedResponse_iff.1 h
  split
  · next hi => exact decodeResult_eq_framingError_iff.2 (headerOk_set_of_le_one hh hv hi)
  · next hi =>
    refine decodeResult_eq_checksumMismatch_iff.2 ⟨?_, checksumOk_set hc hv (by omega)⟩
    rw [headerOk_set_of_two_le f v (by omega), hh]

/-- Settles O30: `RES` by `decodeResult_set`, and the checksum registers by what the change does to the checksum of
bytes 1 to 7 and to byte 8, which were equal. -/
theorem singleByteCorruptionIsCaught : Obligations.SingleByteCorruptionIsCaught := by
  intro f i v s hf hv hs
  obtain ⟨-, hc⟩ := wellFormedResponse_iff.1 hf
  have hsum : checksum f 1 = f[8] := checksumOk_iff.1 hc
  obtain ⟨-, -, -, hexp, hact, -⟩ := decodeBuffer_frame s
  have hres := statusRes_decodeBuffer s
  rw [hs] at hexp hact hres
  rw [decodeResult_set hf hv] at hres
  have hkept : i.val ≤ 7 → (decodeBuffer s).csAct = checksum f 1 := fun h7 => by
    rw [hact, getElem_eight_set f v h7, hsum]
  have hill : wellFormedResponse s.fb = false := by
    rw [← Bool.not_eq_true, ← decodeBuffer_ok_iff, hres, resCode_inj]
    split <;> simp
  obtain ⟨-, hppm, hvalid⟩ := decodeBuffer_of_illFormed hill
  refine ⟨decodeBuffer s, rfl, hppm, hvalid, fun hi => ?_, fun ⟨hlo, hhi⟩ => ?_, fun hi => ?_⟩
  · rw [if_pos hi] at hres
    rw [hexp, hkept (by omega)]
    refine ⟨hres, fun h0 => checksum_set_outside f v (.inl h0), fun heq => ?_⟩
    by_contra h0
    exact checksum_set_ne ⟨by omega, by omega⟩ hv heq
  · rw [if_neg (by omega)] at hres
    rw [hexp, hkept hhi]
    refine ⟨hres, checksum_set_ne ⟨by omega, hhi⟩ hv, ?_⟩
    rw [checksum_set_inside f v ⟨by omega, hhi⟩, sub_sub_cancel]
  · rw [if_neg (by omega)] at hres
    obtain rfl : i = 8 := Fin.ext hi
    refine ⟨hres, ?_, hact.trans (Vector.getElem_set_self _)⟩
    rw [hexp, checksum_set_outside f v (.inr hi), hsum]

end Sys2Proof.Machine
end

section
/-! PROOFS of the family 60_exceptions: what a command fault leaves unchanged (R96, R98, R99), and which moves record one
(R95, R105 H8). -/

namespace Sys2Proof.Machine

/-! ### A fault is precise -/

/-- Only a command fault changes `ERR_F` or `ERR_CODE` at an edge without reset. -/
theorem MoveEffect.eq_raiseCmdFault {s t : State} {m : HostInput} (h : MoveEffect s m t) (hr : m.isReset = false)
    (hchange : statusErrF t.status ≠ statusErrF s.status ∨ statusErrCode t.status ≠ statusErrCode s.status) :
    ∃ f, t = raiseCmdFault f s := by
  cases h with
  | reset => cases hr
  | idle => simp at hchange
  | loaded => simp at hchange
  | summed => simp at hchange
  | decoded =>
    obtain ⟨-, -, -, -, -, herr, hcode, -⟩ := decodeBuffer_frame s
    simp [herr, hcode] at hchange
  | @faulted w f => exact ⟨f, rfl⟩

/-- Settles O45, by what a command fault writes. -/
theorem eventsArePrecise : Obligations.EventsArePrecise := by
  intro s t valid cmd rest hs hstep hchange
  obtain ⟨f, rfl⟩ := (moveEffect_of_step hs hstep).eq_raiseCmdFault rfl hchange
  obtain ⟨hzero, hres, hvalid, -⟩ := raiseCmdFault_status f (s.setInputs rest)
  exact ⟨raiseCmdFault_eq f (s.setInputs rest), hres, hvalid, hzero⟩

/-! ### A fault is recorded exactly on a breach of H8 -/

/-- A word that raises a fault breaches H8. -/
theorem HostInput.breachesH8_of_raisesFault {w : Word} {f : CmdFault} (h : RaisesFault w f) :
    (HostInput.edge false true w).breachesH8 = true := by
  cases f with
  | illegalCmd =>
    obtain ⟨why, hd⟩ := h
    simp [HostInput.breachesH8, hd]
  | indexRange =>
    obtain ⟨idx, val, hd, hi⟩ := h
    simpa [HostInput.breachesH8, hd] using hi
  | offsetRange =>
    obtain ⟨off, hd, ho⟩ := h
    simpa [HostInput.breachesH8, hd] using ho

/-- A load of a byte of the buffer is no breach of H8. -/
theorem HostInput.breachesH8_of_ldb {w : Word} {idx : Idx} {val : Byte} {i : Fin 9}
    (hd : decodeWord w = .legal (.ldb idx val)) (hi : idx.toNat = i.val) :
    (HostInput.edge false true w).breachesH8 = false := by
  simpa [HostInput.breachesH8, hd, hi] using Nat.le_of_lt_succ i.isLt

/-- A sum of one of the three spans is no breach of H8. -/
theorem HostInput.breachesH8_of_csum {w : Word} {off : Idx} {o : Fin 3}
    (hd : decodeWord w = .legal (.csum off)) (ho : off.toNat = o.val) :
    (HostInput.edge false true w).breachesH8 = false := by
  simpa [HostInput.breachesH8, hd, ho] using Nat.le_of_lt_succ o.isLt

/-- `DEC` is no breach of H8. -/
theorem HostInput.breachesH8_of_dec {w : Word} (hd : decodeWord w = .legal .dec) :
    (HostInput.edge false true w).breachesH8 = false := by simp [HostInput.breachesH8, hd]

/-- After an edge without reset the state is clean exactly if it was and the move keeps H8. -/
theorem MoveEffect.clean_iff {s t : State} {m : HostInput} (h : MoveEffect s m t) (hr : m.isReset = false) :
    t.clean = true ↔ s.clean = true ∧ m.breachesH8 = false := by
  cases h with
  | reset => cases hr
  | idle => simp [HostInput.breachesH8]
  | loaded hd hi => simp [HostInput.breachesH8_of_ldb hd hi, State.clean]
  | summed hd ho => simp [HostInput.breachesH8_of_csum hd ho, State.clean]
  | decoded hd =>
    obtain ⟨-, -, -, -, -, herr, -⟩ := decodeBuffer_frame s
    simp [HostInput.breachesH8_of_dec hd, State.clean, herr]
  | @faulted w f hf =>
    obtain ⟨-, -, -, herr, -⟩ := raiseCmdFault_status f s
    simp [HostInput.breachesH8_of_raisesFault hf, State.clean, herr]

/-- After a run without reset the state is clean exactly if it was and every move taken keeps H8. -/
theorem run_clean_iff {k : Nat} {s t : State} (hok : ∀ m ∈ s.inputs, m.isReset = false)
    (hrun : Host.Core.run Sys2Proof.core k s = .next t) :
    t.clean = true ↔ s.clean = true ∧ ∀ m ∈ s.inputs.take k, m.breachesH8 = false := by
  induction k generalizing s with
  | zero =>
    cases hrun
    simp
  | succ k ih =>
    obtain ⟨u, hstep, hrest⟩ := run_succ_cases hrun
    obtain ⟨hnil, rfl⟩ | ⟨m, rest, hcons, he⟩ := step_cases hstep
    · simpa [hnil] using ih hok hrest
    · have hin : u.inputs = rest := he.inputs
      rw [hcons, List.forall_mem_cons] at hok
      obtain ⟨hm, hlater⟩ := hok
      rw [ih (hin ▸ hlater) hrest, he.clean_iff hm, hin, hcons, List.take_succ_cons, List.forall_mem_cons, and_assoc]
      rfl

/-- Settles O47: the state at the start is clean. -/
theorem faultExactlyOnBreach : Obligations.FaultExactlyOnBreach := by
  intro k s t hclean hok hrun
  rw [run_clean_iff hok hrun]
  exact and_iff_right hclean

/-! ### A recorded fault disturbs nothing else -/

/-- Differing in the fault fields only is symmetric. -/
theorem State.sameButFault.symm {s t : State} (h : s.sameButFault t) : t.sameButFault s := by
  obtain ⟨hfb, hppm, hexp, hact, hcsr, hin, hzero, hres, hvalid⟩ := h
  exact ⟨hfb.symm, hppm.symm, hexp.symm, hact.symm, hcsr.symm, hin.symm, hzero.symm, hres.symm, hvalid.symm⟩

/-- Differing in the fault fields only is transitive. -/
theorem State.sameButFault.trans {s t u : State} (h : s.sameButFault t) (h' : t.sameButFault u) :
    s.sameButFault u := by
  obtain ⟨hfb, hppm, hexp, hact, hcsr, hin, hzero, hres, hvalid⟩ := h
  obtain ⟨hfb', hppm', hexp', hact', hcsr', hin', hzero', hres', hvalid'⟩ := h'
  exact ⟨hfb'.trans hfb, hppm'.trans hppm, hexp'.trans hexp, hact'.trans hact, hcsr'.trans hcsr, hin'.trans hin,
    hzero'.trans hzero, hres'.trans hres, hvalid'.trans hvalid⟩

/-- The two states still differ in the fault fields only when both lose the same move. -/
theorem State.sameButFault.setInputs {s u : State} (h : s.sameButFault u) (l : List HostInput) :
    (s.setInputs l).sameButFault (u.setInputs l) := by
  obtain ⟨hfb, hppm, hexp, hact, hcsr, -, hstatus⟩ := h
  exact ⟨hfb, hppm, hexp, hact, hcsr, rfl, hstatus⟩

/-- A command fault changes the fault fields only (R96). -/
theorem sameButFault_raiseCmdFault (f : CmdFault) (s : State) : s.sameButFault (raiseCmdFault f s) := by
  obtain ⟨hfb, hppm, hexp, hact, hcsr, hin⟩ := raiseCmdFault_frame f s
  obtain ⟨hzero, hres, hvalid, -⟩ := raiseCmdFault_status f s
  exact ⟨hfb, hppm, hexp, hact, hcsr, hin, hzero, hres, hvalid⟩

/-- What `DEC` writes does not depend on the fault fields. -/
theorem State.sameButFault.decodeBuffer {s u : State} (h : s.sameButFault u) :
    (decodeBuffer s).sameButFault (decodeBuffer u) := by
  obtain ⟨hfb, hppm, -, -, hcsr, hin, hzero, -, hvalid⟩ := h
  obtain ⟨hfbS, hcsrS, hinS, hexpS, hactS, -, -, hzeroS⟩ := decodeBuffer_frame s
  obtain ⟨hfbU, hcsrU, hinU, hexpU, hactU, -, -, hzeroU⟩ := decodeBuffer_frame u
  refine ⟨?_, ?_, ?_, ?_, ?_, ?_, ?_, ?_, ?_⟩
  · rw [hfbS, hfbU, hfb]
  · rw [decodeBuffer_ppm, decodeBuffer_ppm, hfb, hppm]
  · rw [hexpS, hexpU, hfb]
  · rw [hactS, hactU, hfb]
  · rw [hcsrS, hcsrU, hcsr]
  · rw [hinS, hinU, hin]
  · rw [hzeroS, hzeroU, hzero]
  · rw [statusRes_decodeBuffer, statusRes_decodeBuffer, hfb]
  · rw [statusPpmValid_decodeBuffer, statusPpmValid_decodeBuffer, hfb, hvalid]

/-- The effect of a move depends on the fault fields in no other field. -/
theorem MoveEffect.sameButFault {s u t v : State} {m : HostInput} (ht : MoveEffect s m t) (hsu : s.sameButFault u)
    (hv : MoveEffect u m v) : t.sameButFault v := by
  obtain ⟨hfb, hppm, hexp, hact, hcsr, hin, hstatus⟩ := id hsu
  cases ht with
  | reset valid cmd =>
    obtain rfl := hv.eq_resetStep
    exact ⟨rfl, rfl, rfl, rfl, rfl, hin, rfl, rfl, rfl⟩
  | idle cmd =>
    obtain rfl := hv.unique (.idle cmd)
    exact hsu
  | @loaded w idx val i hd hi =>
    obtain rfl := hv.unique (.loaded hd hi)
    exact ⟨congrArg (fun fb : Frame => fb.set i val) hfb, hppm, hexp, hact, hcsr, hin, hstatus⟩
  | @summed w off o hd ho =>
    obtain rfl := hv.unique (.summed hd ho)
    exact ⟨hfb, hppm, hexp, hact, congrArg (checksum · o) hfb, hin, hstatus⟩
  | decoded hd =>
    obtain rfl := hv.unique (.decoded hd)
    exact hsu.decodeBuffer
  | @faulted w f hf =>
    obtain rfl := hv.unique (.faulted hf)
    exact ((sameButFault_raiseCmdFault f s).symm.trans hsu).trans (sameButFault_raiseCmdFault f u)

/-- Settles O48, in lockstep: the two states differ in the fault fields only after every move. -/
theorem faultDoesNotDisturbTheRun : Obligations.FaultDoesNotDisturbTheRun := fun _ _ _ _ _ hsu hs hu =>
  run_lockstep (ok := fun _ => True) (fun ⟨_, _, _, _, _, hin, _⟩ => hin)
    (fun h _ ht hv => ht.sameButFault (h.setInputs _) hv) hsu (fun _ _ => trivial) hs hu

end Sys2Proof.Machine
end

section
/-! PROOFS of the family 70_reset_and_hazards: no step and no instruction stops the block (R125). An instruction's meaning
is the step on the first move that presents its code, so that it completes because every step does. -/

namespace Sys2Proof.Machine

/-! ### Every step completes -/

/-- A step always completes and consumes the host's next move. -/
theorem exists_step_eq_next (s : State) : ∃ t, step s = .next t ∧ t.inputs = s.inputs.tail := by
  cases hs : s.inputs with
  | nil => exact ⟨s, step_nil hs, hs⟩
  | cons m rest =>
    obtain ⟨t, ht⟩ := exists_moveEffect m (s.setInputs rest)
    exact ⟨t, (step_cons hs).trans ht.acceptInput_eq, ht.inputs⟩

/-! ### Every instruction completes -/

/-- A code is presented by at least one move. -/
theorem presentCode_ne_nil (c : Code) : presentCode c ≠ [] := by
  cases c with
  | word w => exact List.cons_ne_nil _ _
  | frame f =>
    rw [presentCode_frame]
    exact List.cons_ne_nil _ _

/-- The step on an instruction's code presented next is the instruction (R55, R57). -/
theorem step_presentNext_encode (i : Instr) (s : State) : step (presentNext (encode i) s) = exec i s :=
  stepRunsDecodedInstruction (presentNext (encode i) s) (encode i) s.inputs i rfl (decodeOfEncode i)

/-- Settles O12, by the step that runs the instruction: it consumes the first of the code's moves and leaves the others
before the host's. -/
theorem everyStepCompletes : Obligations.EveryStepCompletes := by
  refine ⟨exists_step_eq_next, fun i s => ?_⟩
  obtain ⟨t, ht, hin⟩ := exists_step_eq_next (presentNext (encode i) s)
  exact ⟨t, (step_presentNext_encode i s).symm.trans ht,
    hin.trans (List.tail_append_of_ne_nil (presentCode_ne_nil (encode i)))⟩

end Sys2Proof.Machine
end
